-- ==== Sys2Proof/Word.lean ====
section
/-! DEFINITION. The word types of the DNS header core: bytes, lengths, the command word and the narrow header fields. -/

namespace Sys2Proof

/-- One byte of a region, of a payload or of a packed header. -/
abbrev Byte := BitVec 8

/-- A 16-bit unsigned value: a length, a capacity, a cursor, the N field (R24, R71), and the 16-bit header fields (R31). -/
abbrev Len := BitVec 16

/-- The 32-bit command word (R71). -/
abbrev Word := BitVec 32

/-- A one-bit flag: 1 is true, 0 is false (R10). -/
abbrev Flag := BitVec 1

/-- A 4-bit header field as it stands on the wire and in `HOut` (R32, R100). -/
abbrev Nibble := BitVec 4

end Sys2Proof
end

