-- ==== Sys2Proof/Syntax.lean ====
section
/-! DEFINITION. The commands: the six operations of spec/opcode_table.json, the header operand bundle, the command triple,
and the reasons for which a command is illegal. -/

namespace Sys2Proof

/-- The operation a legal command word selects, with its N field (R72, R73). The header operand bundle and the payload are
operands in their own right (R70): they travel with the command and stand in the state's command port. -/
inductive Instr where
  /-- PACK, OP 0x1 (R101); its N is 0. -/
  | pack
  /-- UNPACK, OP 0x2 (R103); n is the number of bytes available. -/
  | unpack (n : Len)
  /-- RB.BIND, OP 0x3 (R130); n is the region length. -/
  | rbBind (n : Len)
  /-- RB.READ, OP 0x4 (R131); n is the number of bytes to read. -/
  | rbRead (n : Len)
  /-- WB.INIT, OP 0x5 (R132); n is the capacity. -/
  | wbInit (n : Len)
  /-- WB.WRITE, OP 0x6 (R133); n is the number of bytes to write. -/
  | wbWrite (n : Len)
deriving DecidableEq, Repr

/-- The header operand bundle `H_in` (R31). It has no Z field. A field left out is 0 (R78). -/
structure HIn where
  id : Len := 0
  qr : Flag := 0
  /-- Only bits [3:0] reach the wire (R102). -/
  opcodeIn : BitVec 8 := 0
  aa : Flag := 0
  tc : Flag := 0
  rd : Flag := 0
  ra : Flag := 0
  /-- Only bits [3:0] reach the wire (R102). -/
  rcodeIn : BitVec 8 := 0
  qdcount : Len := 0
  ancount : Len := 0
  nscount : Len := 0
  arcount : Len := 0
deriving DecidableEq, Repr

/-- A command as the host issues it: the triple of R70. -/
structure Command where
  word : Word
  hIn : HIn
  payload : List Byte
deriving DecidableEq, Repr

/-- Why the decoder refuses a command word: the first three conditions of R75. The fourth, the payload's length, is the
meanings' own check (`withPayload`). Every one gives the same response, so which name is given cannot be observed. -/
inductive Illegal where
  /-- OP is 0x0 or one of 0x7 to 0xF. -/
  | reservedOp
  /-- RSV ≠ 0. -/
  | reservedBits
  /-- OP is PACK and N ≠ 0. -/
  | packCount
deriving DecidableEq, Repr

end Sys2Proof
end

