-- ==== Sys2Proof/Decode.lean ====
section
/-! DEFINITION. The decoder of the 32-bit command word, total over all words (R74), and after it the encoder (R71, R73, R78). -/

namespace Sys2Proof

/-- The OP field, bits [31:28] (R71). -/
def opField (w : Word) : BitVec 4 := w.extractLsb' 28 4

/-- The RSV field, bits [27:16] (R71). -/
def rsvField (w : Word) : BitVec 12 := w.extractLsb' 16 12

/-- The N field, bits [15:0] (R71). -/
def nField (w : Word) : Len := w.extractLsb' 0 16

/-- The operation OP selects, with N as its operand (R73); none for a reserved OP. -/
def selectOp (op : BitVec 4) (n : Len) : Option Instr :=
  if op = 1 then some .pack
  else if op = 2 then some (.unpack n)
  else if op = 3 then some (.rbBind n)
  else if op = 4 then some (.rbRead n)
  else if op = 5 then some (.wbInit n)
  else if op = 6 then some (.wbWrite n)
  else none

/-- The decoder, in the order of R76's checks: the instruction, or the condition of R75 that makes the word illegal. -/
def decodeWord (w : Word) : Except Illegal Instr :=
  match selectOp (opField w) (nField w) with
  | none => .error .reservedOp
  | some i =>
    if rsvField w ≠ 0 then .error .reservedBits
    else if opField w = 1 ∧ nField w ≠ 0 then .error .packCount
    else .ok i

/-- The decoder on an instruction of the opcode table given as a number: a command is one 32-bit word (R77), bits above
`nbits` are 0, and a number that needs more than 32 bits is no command word (log entry 11). -/
def decodeTableWord (nbits w : Nat) : Option Instr :=
  if w % 2 ^ nbits < 2 ^ 32 then (decodeWord (BitVec.ofNat 32 (w % 2 ^ nbits))).toOption else none

/-- The OP value of an operation (R73). -/
def opCode : Instr → BitVec 4
  | .pack => 0x1
  | .unpack _ => 0x2
  | .rbBind _ => 0x3
  | .rbRead _ => 0x4
  | .wbInit _ => 0x5
  | .wbWrite _ => 0x6

/-- The N value of an operation; PACK's is 0 (R72). -/
def countField : Instr → Len
  | .pack => 0
  | .unpack n => n
  | .rbBind n => n
  | .rbRead n => n
  | .wbInit n => n
  | .wbWrite n => n

/-- The command word of an operation: OP in [31:28], RSV = 0 in [27:16], N in [15:0] (R71). -/
def encode (i : Instr) : Word := opCode i ++ (0 : BitVec 12) ++ countField i

/-- The command that issues operation `i` with these operands (R70). -/
def encodeCommand (i : Instr) (h : HIn) (payload : List Byte) : Command := ⟨encode i, h, payload⟩

end Sys2Proof
end

