-- ==== Sys2Proof/Machine/State.lean ====
section
/-! DEFINITION. The state of the DNS header core, as plain data, the responses it gives, and the reasons a step can stop. -/

namespace Sys2Proof.Machine

/-- A region's bytes: (offset, byte) pairs, offsets strictly rising, no byte 0 listed; an unlisted offset of the region reads
as 0 (log entry 4). `Memory.wf` says the form holds. -/
abbrev Memory := List Host.Cell

/-- The status of a response (R160). -/
inductive Status where
  | ok
  | truncatedInput
  | outOfBounds
  | illegalCommand
deriving DecidableEq, Repr

/-- The header result bundle `H_out` (R32). It has no Z field. -/
structure HOut where
  id : Len
  qr : Flag
  opcode : Nibble
  aa : Flag
  tc : Flag
  rd : Flag
  ra : Flag
  rcode : Nibble
  qdcount : Len
  ancount : Len
  nscount : Len
  arcount : Len
deriving DecidableEq, Repr

/-- The response of a command (R33). A field the command does not produce is absent, not a default (log entry 8). -/
structure Response where
  status : Status
  data : Option (List Byte) := none
  hdr : Option HOut := none
  count : Option Len := none
deriving DecidableEq, Repr

/-- What the host can do to the block: the four interactions of R40. -/
inductive HostAction where
  /-- Issue one command. -/
  | issue (c : Command)
  /-- Read the register with this host index (R41). -/
  | readRegister (index : Nat)
  /-- Read byte `i` of the write region (R41). -/
  | readRegion (i : Nat)
  /-- Assert reset, between commands (R180, R182). -/
  | reset
deriving DecidableEq, Repr

/-- What the host gets back (R40). A reset gives nothing back. -/
inductive HostReply where
  /-- The response of a command. -/
  | response (r : Response)
  /-- The value of a register. -/
  | register (v : Len)
  /-- A byte of the write region. -/
  | regionByte (b : Byte)
deriving DecidableEq, Repr

/-- Why a step faults. The block itself has no faults (R165, R185): no command reaches one of these. -/
inductive Fault where
  /-- `MemRead` asked for bytes outside the read region, where R53 does not define it. Raised by RB.READ's meaning if its
  bounds check did not rule it out, which it does. Safe. -/
  | readOutsideRegion
  /-- `MemWrite` asked to store outside the write region or a sequence of another length, where R54 does not define it.
  Raised by WB.WRITE's meaning if its checks did not rule it out, which they do. Safe. -/
  | writeOutsideRegion
deriving DecidableEq, Repr

/-- Why a step is refused. Only a host-duty violation is refused (93_implementation_defined.md rows 11 and 12). -/
inductive Refusal where
  /-- An instruction without a meaning. Raised by no arm: every instruction has its meaning. Safe. -/
  | notModelled (mnemonic : String)
  /-- The host read a register index above 3 (R40). Raised by the host read port. Unsafe for a host that does it: the model
  has no move there, as the spec decides (D16; log entry 6). -/
  | registerIndex
  /-- The host read a write-region index at or above WB_CAP (R40). Raised by the host read port. Unsafe for a host that
  does it, as above (D16; log entry 6). -/
  | regionIndex
deriving DecidableEq, Repr

/-- The state. The first six fields are the spec's whole architectural state (R43); the last three are the model's own, for
the host interface (log entries 1, 2 and 3). -/
structure State where
  /-- `RB_MEM`, the read region (R25). -/
  rbMem : Memory
  /-- `RB_LEN`, host index 0 (R24). -/
  rbLen : Len
  /-- `RB_CUR`, host index 1 (R24). -/
  rbCur : Len
  /-- `WB_MEM`, the write region (R26). -/
  wbMem : Memory
  /-- `WB_CAP`, host index 2 (R24). -/
  wbCap : Len
  /-- `WB_CUR`, host index 3 (R24). -/
  wbCur : Len
  /-- The host interactions still to be carried out, oldest first (R40; log entry 1). -/
  pending : List HostAction
  /-- The command port: the command being executed, with its operands (R70; log entry 2). -/
  port : Command
  /-- What the host got back so far, newest first (R33, R40; log entry 3). -/
  replies : List HostReply
deriving DecidableEq, Repr

/-- The machine right after reset (R180), with nothing issued, nothing on the command port and nothing answered yet
(log entries 1, 2 and 3). -/
def State.reset : State where
  rbMem := []
  rbLen := 0
  rbCur := 0
  wbMem := []
  wbCap := 0
  wbCur := 0
  pending := []
  port := ⟨0, ⟨0, 0, 0, 0, 0, 0, 0, 0, 0, 0, 0, 0⟩, []⟩
  replies := []

/-- The outcome of a step or of a meaning. -/
abbrev Out := Host.Outcome State Fault Refusal

end Sys2Proof.Machine
end

