-- ==== Sys2Proof/Machine/Ops.lean ====
section
/-! DEFINITION. The named operations: bytes of a region, the updates of the state, the bounded access primitives
`MemRead` and `MemWrite` (R53, R54), ending a command with a response or an error (R161), and reset (R180). -/

namespace Sys2Proof.Machine

/-! ### Bytes of a region -/

/-- The byte at an offset; an unlisted offset reads as 0. -/
def Memory.read : Memory → Nat → Byte
  | [], _ => 0
  | (k, b) :: m, a => if k = a then b else Memory.read m a

/-- Puts a byte before the cells of higher offsets; a byte 0 is not listed. -/
def Memory.cons (a : Nat) (v : Byte) (m : Memory) : Memory := if v = 0 then m else (a, v) :: m

/-- Writes one byte, keeping the canonical form. -/
def Memory.write : Memory → Nat → Byte → Memory
  | [], a, v => Memory.cons a v []
  | (k, b) :: m, a, v =>
    if a < k then Memory.cons a v ((k, b) :: m)
    else if a = k then Memory.cons a v m
    else (k, b) :: Memory.write m a v

/-- The `n` bytes from offset `a` on, in ascending offset order (R52). -/
def Memory.readBytes (m : Memory) (a : Nat) : Nat → List Byte
  | 0 => []
  | n + 1 => m.read a :: Memory.readBytes m (a + 1) n

/-- Stores byte k of a sequence at offset `a + k`, for every k (R52, R54). -/
def Memory.writeBytes (m : Memory) (a : Nat) : List Byte → Memory
  | [] => m
  | v :: vs => Memory.writeBytes (m.write a v) (a + 1) vs

/-- The region that holds exactly these bytes from offset `a` on. -/
def Memory.ofBytes (a : Nat) : List Byte → Memory
  | [] => []
  | v :: vs => Memory.cons a v (Memory.ofBytes (a + 1) vs)

/-- The canonical form: offsets strictly rising, and no listed byte equal to what an unlisted offset reads as. -/
abbrev Memory.wf (m : Memory) : Prop := m.Pairwise (fun c d => c.1 < d.1) ∧ ∀ c ∈ m, c.2 ≠ 0

/-- The region has at most `n` bytes: no listed offset is `n` or above. -/
abbrev Memory.within (m : Memory) (n : Nat) : Prop := ∀ c ∈ m, c.1 < n

/-! ### Updates of the state -/

/-- The host gets one more reply. -/
def State.reply (r : HostReply) (s : State) : State := { s with replies := r :: s.replies }

/-- The command port holds this command. -/
def State.setPort (c : Command) (s : State) : State := { s with port := c }

/-- These host interactions are still to come. -/
def State.setPending (q : List HostAction) (s : State) : State := { s with pending := q }

/-- RB_MEM, RB_LEN and RB_CUR of a new read region: the cursor is 0 (R130). -/
def State.bindRead (m : Memory) (n : Len) (s : State) : State :=
  { s with rbMem := m, rbLen := n, rbCur := 0 }

/-- RB_CUR moves to a new offset. -/
def State.setReadCursor (c : Len) (s : State) : State := { s with rbCur := c }

/-- WB_MEM, WB_CAP and WB_CUR of a new write region: every byte is 0 and the cursor is 0 (R132). -/
def State.initWrite (n : Len) (s : State) : State := { s with wbMem := [], wbCap := n, wbCur := 0 }

/-- WB_MEM changes. -/
def State.setWriteMem (m : Memory) (s : State) : State := { s with wbMem := m }

/-- WB_CUR moves to a new offset. -/
def State.setWriteCursor (c : Len) (s : State) : State := { s with wbCur := c }

/-- The reset action on the block's six pieces of state (R180). The model's own fields stay: what the host still does, and
what it got back already, are the host's (log entry 12). -/
def State.resetBlock (s : State) : State :=
  { s with rbMem := [], rbLen := 0, rbCur := 0, wbMem := [], wbCap := 0, wbCur := 0 }

/-! ### Bounded access -/

/-- `MemRead(addr, n)`: the `n` bytes from `addr` on of the read region, defined only when `addr + n ≤ RB_LEN` (R53). -/
def memRead (s : State) (addr n : Nat) : Option (List Byte) :=
  if addr + n ≤ s.rbLen.toNat then some (s.rbMem.readBytes addr n) else none

/-- `MemWrite(addr, n, v)`: the write region with `v` stored from `addr` on, defined only when `addr + n ≤ WB_CAP` and `v` has
`n` bytes (R54). -/
def memWrite (s : State) (addr n : Nat) (v : List Byte) : Option Memory :=
  if addr + n ≤ s.wbCap.toNat ∧ v.length = n then some (s.wbMem.writeBytes addr v) else none

/-- A cursor moved on by `n`: the exact sum, narrowed to the register's 16 bits (R57). -/
def advance (cur n : Len) : Len := BitVec.ofNat 16 (cur.toNat + n.toNat)

/-! ### Ending a command -/

/-- `respond(...)`: the command ends with this response (R8, R33). -/
def respond (r : Response) (s : State) : Out := .next (s.reply (.response r))

/-- `raise E`: the command ends with status E, writes no state of the block and returns no data, hdr or count (R161). The
block has no trap entry and no return from one (R165, R166): this is all that an error does. -/
def raise (e : Status) (s : State) : Out := respond { status := e } s

/-- What comes after a next state; a fault or a refusal ends the run. -/
def andThen (o : Out) (k : State → Out) : Out :=
  match o with
  | .next s => k s
  | .fault f => .fault f
  | .refused r => .refused r

/-! ### Views -/

/-- The read region as the byte array of R25. -/
def readRegionBytes (s : State) : List Byte := s.rbMem.readBytes 0 s.rbLen.toNat

/-- The write region as the byte array of R26. -/
def writeRegionBytes (s : State) : List Byte := s.wbMem.readBytes 0 s.wbCap.toNat

/-- The outgoing message `WB_MEM[0 .. WB_CUR)` (R42). -/
def outgoingMessage (s : State) : List Byte := s.wbMem.readBytes 0 s.wbCur.toNat

/-- The newest response, if the newest reply is one. -/
def lastResponse (s : State) : Option Response :=
  match s.replies with
  | .response r :: _ => some r
  | _ => none

end Sys2Proof.Machine
end

