-- ==== Sys2Proof/Machine/Operands.lean ====
section
/-! DEFINITION. The operands of a command: the payload with its length check (R72, R75), the masked 4-bit inputs (R102) and
the big-endian split and joining of 16-bit fields (R51). -/

namespace Sys2Proof.Machine

/-- Runs an operation on the payload of the command port when the payload has the required length; otherwise the command is
illegal (R75, condition 4), before any other check of the operation (R164). -/
def withPayload (need : Nat) (s : State) (run : List Byte → Out) : Out :=
  if s.port.payload.length = need then run s.port.payload else raise .illegalCommand s

/-- Bits [3:0] of an 8-bit input field; the other bits are ignored (R102). -/
def low4 (v : BitVec 8) : Nibble := v.extractLsb' 0 4

/-- Bits [15:8] of a 16-bit field, the byte at the lower offset (R51). -/
def highByte (v : Len) : Byte := v.extractLsb' 8 8

/-- Bits [7:0] of a 16-bit field, the byte at the higher offset (R51). -/
def lowByte (v : Len) : Byte := v.extractLsb' 0 8

/-- `(b0 << 8) | b1` (R103). -/
def join16 (b0 b1 : Byte) : Len := (b0.setWidth 16 <<< 8) ||| b1.setWidth 16

/-- Byte `i` of a byte sequence. -/
def byteAt (b : List Byte) (i : Nat) : Byte := b.getD i 0

end Sys2Proof.Machine
end

