-- ==== Sys2Proof/Machine/Buffer.lean ====
section
/-! DEFINITION. The bounded buffer controller: RB.BIND, RB.READ, WB.INIT, WB.WRITE (41_buffer_controller.md). -/

namespace Sys2Proof.Machine

/-- RB.BIND (R130): the read region becomes a copy of the payload, its cursor 0. -/
def execRbBind (n : Len) (s : State) : Out :=
  withPayload n.toNat s fun payload =>
    respond { status := .ok } (s.bindRead (Memory.ofBytes 0 payload) n)

/-- RB.READ (R131): the sum is exact (R57), and a read past the end changes nothing. -/
def execRbRead (n : Len) (s : State) : Out :=
  withPayload 0 s fun _ =>
    if s.rbCur.toNat + n.toNat > s.rbLen.toNat then raise .outOfBounds s
    else
      match memRead s s.rbCur.toNat n.toNat with
      | none => .fault .readOutsideRegion
      | some d => respond { status := .ok, data := some d } (s.setReadCursor (advance s.rbCur n))

/-- WB.INIT (R132): the write region becomes n zero bytes, its cursor 0. -/
def execWbInit (n : Len) (s : State) : Out :=
  withPayload 0 s fun _ => respond { status := .ok } (s.initWrite n)

/-- WB.WRITE (R133): the sum is exact (R57), and a write past the capacity changes nothing. -/
def execWbWrite (n : Len) (s : State) : Out :=
  withPayload n.toNat s fun payload =>
    if s.wbCur.toNat + n.toNat > s.wbCap.toNat then raise .outOfBounds s
    else
      match memWrite s s.wbCur.toNat n.toNat payload with
      | none => .fault .writeOutsideRegion
      | some m => respond { status := .ok } ((s.setWriteMem m).setWriteCursor (advance s.wbCur n))

end Sys2Proof.Machine
end

