-- ==== Sys2Proof/Config.lean ====
section
/-! DEFINITION. The parameters of the block (00_scope.md R6). The spec leaves no value open, so there is no free value here. -/

namespace Sys2Proof

/-- `HDR_BYTES`: the header is exactly 12 bytes (R6, R100). -/
def Config.hdrBytes : Nat := 12

/-- `LEN_WIDTH`: the width of N, of the lengths and of the cursors (R6, decision D7; log entry 9). -/
def Config.lenWidth : Nat := 16

/-- `MAX_REGION` = 2^LEN_WIDTH − 1 (R6). -/
def Config.maxRegion : Nat := 2 ^ Config.lenWidth - 1

/-- `IN_FIELD_WIDTH`: the width of `opcode_in` and `rcode_in` (R6, decision D8; log entry 9). -/
def Config.inFieldWidth : Nat := 8

/-- `CMD_WIDTH`: the width of the command word (R6, decision D3). -/
def Config.cmdWidth : Nat := 32

end Sys2Proof
end

