-- ==== Sys2Proof/Machine/Flags.lean ====
section
/-! DEFINITION. The status codes of a response (R160) and the two flag bytes of the header (R100). The block has no condition
codes: QR, AA, TC, RD and RA are data of the header (R23). -/

namespace Sys2Proof.Machine

/-- The 2-bit code of a status (R160). -/
def statusCode : Status → BitVec 2
  | .ok => 0
  | .truncatedInput => 1
  | .outOfBounds => 2
  | .illegalCommand => 3

/-- Byte 2 of the header: QR, OPCODE, AA, TC, RD (R101). -/
def flagByte2 (qr : Flag) (op4 : Nibble) (aa tc rd : Flag) : Byte :=
  (qr.setWidth 8 <<< 7) ||| (op4.setWidth 8 <<< 3) ||| (aa.setWidth 8 <<< 2) ||| (tc.setWidth 8 <<< 1) ||| rd.setWidth 8

/-- Byte 3 of the header: RA, Z = 000, RCODE (R101, R105). -/
def flagByte3 (ra : Flag) (rc4 : Nibble) : Byte :=
  (ra.setWidth 8 <<< 7) ||| ((0 : BitVec 3).setWidth 8 <<< 4) ||| rc4.setWidth 8

/-- `b[i]`: one bit of a byte (R8). -/
def bitAt (b : Byte) (i : Nat) : Flag := b.extractLsb' i 1

/-- OPCODE, bits [6:3] of byte 2 (R103). -/
def opcodeBits (b2 : Byte) : Nibble := b2.extractLsb' 3 4

/-- RCODE, bits [3:0] of byte 3; Z, bits [6:4], is read by nothing (R103, R105). -/
def rcodeBits (b3 : Byte) : Nibble := b3.extractLsb' 0 4

end Sys2Proof.Machine
end

