-- ==== Sys2Proof/Machine/Codec.lean ====
section
/-! DEFINITION. The header codec: PACK and UNPACK (40_header_codec.md). It holds no state (R30). -/

namespace Sys2Proof.Machine

/-- The 12 bytes of a header value (R101). -/
def packHeader (h : HIn) : List Byte :=
  [highByte h.id, lowByte h.id,
   flagByte2 h.qr (low4 h.opcodeIn) h.aa h.tc h.rd,
   flagByte3 h.ra (low4 h.rcodeIn),
   highByte h.qdcount, lowByte h.qdcount,
   highByte h.ancount, lowByte h.ancount,
   highByte h.nscount, lowByte h.nscount,
   highByte h.arcount, lowByte h.arcount]

/-- The header value in the 12 bytes of a sequence (R103). -/
def unpackHeader (b : List Byte) : HOut where
  id := join16 (byteAt b 0) (byteAt b 1)
  qr := bitAt (byteAt b 2) 7
  opcode := opcodeBits (byteAt b 2)
  aa := bitAt (byteAt b 2) 2
  tc := bitAt (byteAt b 2) 1
  rd := bitAt (byteAt b 2) 0
  ra := bitAt (byteAt b 3) 7
  rcode := rcodeBits (byteAt b 3)
  qdcount := join16 (byteAt b 4) (byteAt b 5)
  ancount := join16 (byteAt b 6) (byteAt b 7)
  nscount := join16 (byteAt b 8) (byteAt b 9)
  arcount := join16 (byteAt b 10) (byteAt b 11)

/-- The header value an `H_in` stands for on the wire: the two 4-bit fields masked, every other field as it is (R32, R106). -/
def headerOf (h : HIn) : HOut where
  id := h.id
  qr := h.qr
  opcode := low4 h.opcodeIn
  aa := h.aa
  tc := h.tc
  rd := h.rd
  ra := h.ra
  rcode := low4 h.rcodeIn
  qdcount := h.qdcount
  ancount := h.ancount
  nscount := h.nscount
  arcount := h.arcount

/-- The operand that copies a header value, `opcode` and `rcode` into `opcode_in` and `rcode_in` (R107). -/
def operandOf (o : HOut) : HIn where
  id := o.id
  qr := o.qr
  opcodeIn := o.opcode.setWidth 8
  aa := o.aa
  tc := o.tc
  rd := o.rd
  ra := o.ra
  rcodeIn := o.rcode.setWidth 8
  qdcount := o.qdcount
  ancount := o.ancount
  nscount := o.nscount
  arcount := o.arcount

/-- PACK (R101). -/
def execPack (s : State) : Out :=
  withPayload 0 s fun _ => respond { status := .ok, data := some (packHeader s.port.hIn) } s

/-- UNPACK (R103): the length is checked before any payload byte is used (R104), and only bytes 0 to 11 are. -/
def execUnpack (n : Len) (s : State) : Out :=
  withPayload n.toNat s fun payload =>
    if n.toNat < Config.hdrBytes then raise .truncatedInput s
    else
      respond { status := .ok, hdr := some (unpackHeader (payload.take Config.hdrBytes)),
                count := some (BitVec.ofNat 16 Config.hdrBytes) } s

end Sys2Proof.Machine
end

