-- ==== Sys2Proof/Machine/Dispatch.lean ====
section
/-! DEFINITION. exec: one arm per constructor of Instr (R76's case of op). -/

namespace Sys2Proof.Machine

def exec (i : Instr) (s : State) : Host.Outcome State Fault Refusal :=
  match i with
  | .pack => Sys2Proof.Machine.execPack s
  | .unpack n => Sys2Proof.Machine.execUnpack n s
  | .rbBind n => Sys2Proof.Machine.execRbBind n s
  | .rbRead n => Sys2Proof.Machine.execRbRead n s
  | .wbInit n => Sys2Proof.Machine.execWbInit n s
  | .wbWrite n => Sys2Proof.Machine.execWbWrite n s

end Sys2Proof.Machine
end

