-- ==== Sys2Proof/Machine/HostPort.lean ====
section
/-! DEFINITION. The host interface: the four interactions of R40. -/

namespace Sys2Proof.Machine

/-- One command, atomically (R20, R76): its operands stand on the command port; a legal word runs its operation, any other
word ends with ILLEGAL_COMMAND (R75). -/
def issueCommand (c : Command) (s : State) : Out :=
  match decodeWord c.word with
  | .ok i => exec i (s.setPort c)
  | .error _ => raise .illegalCommand (s.setPort c)

/-- The register a host index names (R24, R41). -/
def registerAt (index : Nat) (s : State) : Option Len :=
  match index with
  | 0 => some s.rbLen
  | 1 => some s.rbCur
  | 2 => some s.wbCap
  | 3 => some s.wbCur
  | _ => none

/-- The host reads a register (R41); an index above 3 breaks a host duty and has no move (R40). -/
def hostReadRegister (index : Nat) (s : State) : Out :=
  match registerAt index s with
  | some v => .next (s.reply (.register v))
  | none => .refused .registerIndex

/-- The host reads a byte of the write region (R41); an index at or above WB_CAP breaks a host duty and has no move (R40). -/
def hostReadRegion (i : Nat) (s : State) : Out :=
  if i < s.wbCap.toNat then .next (s.reply (.regionByte (s.wbMem.read i))) else .refused .regionIndex

/-- One interaction of the host with the block (R40). -/
def hostAct (a : HostAction) (s : State) : Out :=
  match a with
  | .issue c => issueCommand c s
  | .readRegister index => hostReadRegister index s
  | .readRegion i => hostReadRegion i s
  | .reset => .next s.resetBlock

/-- Several commands, one after the other, as the host issues them (R22, R63). -/
def issueAll : List Command → State → Out
  | [], s => .next s
  | c :: cs, s => andThen (issueCommand c s) (issueAll cs)

/-- The command the opcode table's word stands for when nothing but the word is given: H_in zero, and a payload of zeros of
the length the word requires (R73; log entry 11). -/
def tableCommand (nbits w : Nat) : Command :=
  let word := BitVec.ofNat 32 (w % 2 ^ nbits)
  let need := if opField word = 2 ∨ opField word = 3 ∨ opField word = 6 then (nField word).toNat else 0
  ⟨word, {}, List.replicate need 0⟩

end Sys2Proof.Machine
end

