-- ==== Sys2Proof/Machine/Step.lean ====
section
/-! DEFINITION. The step: the block carries out the host's next interaction, and is idle when there is none. -/

namespace Sys2Proof.Machine

/-- One step (R20, R40): the oldest pending interaction, carried out whole. With none pending the block is idle, its state
held (R173, R185; log entry 7). -/
def step (s : State) : Host.Outcome State Fault Refusal :=
  match s.pending with
  | [] => .next s
  | a :: rest => hostAct a (s.setPending rest)

/-- `s` with the command of an opcode-table word issued by the host before anything else it does (log entry 11). The block
fetches nothing (R22), so the next interaction takes the place of a fetch. -/
def State.withFetchWord (s : State) (nbits w : Nat) : State :=
  s.setPending (.issue (tableCommand nbits w) :: s.pending)

end Sys2Proof.Machine
end

