-- ==== Sys2Proof/Machine/Pseudo.lean ====
section
/-! DEFINITION. The pseudo-instructions (R79): each is a sequence of commands that the host issues, evaluating any condition
on the response before. The block itself knows none of them. -/

namespace Sys2Proof.Machine

/-- The `data` of the newest response, as the host copies it into the next payload. -/
def lastData (s : State) : List Byte := ((lastResponse s).bind (·.data)).getD []

/-- `PACK.WB {h}`: PACK {h}, then WB.WRITE 12 with the data of the PACK response (R79). -/
def packWb (h : HIn) (s : State) : Out :=
  andThen (issueCommand (encodeCommand .pack h []) s) fun t =>
    issueCommand (encodeCommand (.wbWrite 12) {} (lastData t)) t

/-- `RB.UNPACK`: RB.READ 12, then, only if that status is OK, UNPACK 12 with the data of the RB.READ response (R79). -/
def rbUnpack (s : State) : Out :=
  andThen (issueCommand (encodeCommand (.rbRead 12) {} []) s) fun t =>
    if (lastResponse t).map (·.status) = some .ok then
      issueCommand (encodeCommand (.unpack 12) {} (lastData t)) t
    else .next t

/-- `RB.SKIP <N>`: RB.READ <N>; the host discards the data of the response (R79; log entry 14). -/
def rbSkip (n : Len) (s : State) : Out := issueCommand (encodeCommand (.rbRead n) {} []) s

end Sys2Proof.Machine
end

