-- ==== Sys2Proof/Machine/Asm.lean ====
section
/-! DEFINITION. The assembler notation of R78, for one line at a time: a line's meaning as a command or a pseudo-instruction
(R79), and the reading of its text. It has no effect on the block (decision D25). -/

namespace Sys2Proof.Machine

/-- One line of a program (R78, R79). N and the payload stand apart, so that illegal commands can be written. -/
inductive AsmLine where
  | pack (h : HIn)
  | unpack (n : Len) (payload : List Byte)
  | rbBind (n : Len) (payload : List Byte)
  | rbRead (n : Len)
  | wbInit (n : Len)
  | wbWrite (n : Len) (payload : List Byte)
  /-- Any raw word and payload; the notation gives it no header operand (log entry 13 says what it is issued with). -/
  | cmd (w : Word) (payload : List Byte)
  | packWb (h : HIn)
  | rbUnpack
  | rbSkip (n : Len)
deriving DecidableEq, Repr

/-- Issues a line's command or commands (R78: PACK assembles to 0x10000000, the others to `OP << 28 | N`; R79).
DESIGN CHOICE (log entry 13): R78 gives a line that is no PACK no H_in, and the model sends zero. By R31 that value has no
effect, but for a raw line with the word 0x10000000: that command is PACK and samples it, so zero fixes its result. -/
def runLine (l : AsmLine) (s : State) : Out :=
  match l with
  | .pack h => issueCommand (encodeCommand .pack h []) s
  | .unpack n p => issueCommand (encodeCommand (.unpack n) {} p) s
  | .rbBind n p => issueCommand (encodeCommand (.rbBind n) {} p) s
  | .rbRead n => issueCommand (encodeCommand (.rbRead n) {} []) s
  | .wbInit n => issueCommand (encodeCommand (.wbInit n) {} []) s
  | .wbWrite n p => issueCommand (encodeCommand (.wbWrite n) {} p) s
  | .cmd w p => issueCommand ⟨w, {}, p⟩ s
  | .packWb h => packWb h s
  | .rbUnpack => rbUnpack s
  | .rbSkip n => rbSkip n s

/-! ### Reading a line's text -/

/-- A token of a line. -/
inductive Token where
  | name (cs : List Char)
  | num (v : Nat)
  | lbrace
  | rbrace
  | comma
  | equals
deriving DecidableEq, Repr

/-- The one-character tokens; the braces are characters 123 and 125. -/
def punctuation (c : Char) : Option Token :=
  if c = Char.ofNat 123 then some .lbrace
  else if c = Char.ofNat 125 then some .rbrace
  else if c = ',' then some .comma
  else if c = '=' then some .equals
  else none

/-- The value of a digit. -/
def digitValue (c : Char) : Option Nat :=
  if '0' ≤ c ∧ c ≤ '9' then some (c.toNat - '0'.toNat)
  else if 'a' ≤ c ∧ c ≤ 'f' then some (c.toNat - 'a'.toNat + 10)
  else if 'A' ≤ c ∧ c ≤ 'F' then some (c.toNat - 'A'.toNat + 10)
  else none

/-- The number that digits spell in a base, on top of those read before. -/
def digitsValue (base : Nat) : List Char → Nat → Option Nat
  | [], v => some v
  | c :: cs, v =>
    match digitValue c with
    | some d => if d < base then digitsValue base cs (v * base + d) else none
    | none => none

/-- Numbers are decimal, or hexadecimal with `0x` (R78). -/
def numberValue (cs : List Char) : Option Nat :=
  match cs with
  | [] => none
  | ['0', 'x'] => none
  | '0' :: 'x' :: ds => digitsValue 16 ds 0
  | ds => digitsValue 10 ds 0

/-- A word of the line is a number or a name. -/
def wordToken (cs : List Char) : Token :=
  match numberValue cs with
  | some v => .num v
  | none => .name cs

/-- Ends the word read so far, if there is one; both arguments run backwards. -/
def endWord (word : List Char) (ts : List Token) : List Token :=
  match word with
  | [] => ts
  | _ => wordToken word.reverse :: ts

/-- The tokens of a text; white space ends a word. -/
def tokens : List Char → List Char → List Token → List Token
  | [], word, ts => (endWord word ts).reverse
  | c :: cs, word, ts =>
    match punctuation c with
    | some t => tokens cs [] (t :: endWord word ts)
    | none => if c.isWhitespace then tokens cs [] (endWord word ts) else tokens cs (c :: word) ts

/-- A number as an unsigned value of `w` bits, if it fits. -/
def fits (w v : Nat) : Option (BitVec w) := if v < 2 ^ w then some (BitVec.ofNat w v) else none

/-- The rest of a byte list, after a byte: bytes are parted by commas (R78). DESIGN CHOICE (log entry 13): the bare hex bytes
parted by spaces, in which 95_test_vectors.md writes payloads, are no form of R78's and are refused here. -/
def bytesTail : List Token → Option (List Byte)
  | [.rbrace] => some []
  | .comma :: .num v :: ts => (fits 8 v).bind fun b => (bytesTail ts).map (b :: ·)
  | _ => none

/-- The payload after N: none written means an empty one (R78). DESIGN CHOICE (log entry 13): a byte is a number as R78 writes
numbers, so one bare byte of 95_test_vectors.md is read as decimal where it has decimal digits only. -/
def payloadTail : List Token → Option (List Byte)
  | [] => some []
  | [.comma, .lbrace, .rbrace] => some []
  | .comma :: .lbrace :: .num v :: ts => (fits 8 v).bind fun b => (bytesTail ts).map (b :: ·)
  | _ => none

/-- Sets one header field by its name in the notation (R78); `opcode` and `rcode` fill `opcode_in` and `rcode_in`. -/
def setField (f : List Char) (v : Nat) (h : HIn) : Option HIn :=
  if f = "id".toList then (fits 16 v).map fun x => { h with id := x }
  else if f = "qr".toList then (fits 1 v).map fun x => { h with qr := x }
  else if f = "opcode".toList then (fits 8 v).map fun x => { h with opcodeIn := x }
  else if f = "aa".toList then (fits 1 v).map fun x => { h with aa := x }
  else if f = "tc".toList then (fits 1 v).map fun x => { h with tc := x }
  else if f = "rd".toList then (fits 1 v).map fun x => { h with rd := x }
  else if f = "ra".toList then (fits 1 v).map fun x => { h with ra := x }
  else if f = "rcode".toList then (fits 8 v).map fun x => { h with rcodeIn := x }
  else if f = "qd".toList then (fits 16 v).map fun x => { h with qdcount := x }
  else if f = "an".toList then (fits 16 v).map fun x => { h with ancount := x }
  else if f = "ns".toList then (fits 16 v).map fun x => { h with nscount := x }
  else if f = "ar".toList then (fits 16 v).map fun x => { h with arcount := x }
  else none

/-- The rest of a field list, after a field. -/
def fieldsTail : List Token → HIn → Option HIn
  | [.rbrace], h => some h
  | .comma :: .name f :: .equals :: .num v :: ts, h => (setField f v h).bind (fieldsTail ts)
  | _, _ => none

/-- The header value in braces; a field left out is 0 (R78). -/
def headerTail : List Token → Option HIn
  | [.lbrace, .rbrace] => some {}
  | .lbrace :: .name f :: .equals :: .num v :: ts => (setField f v {}).bind (fieldsTail ts)
  | _ => none

/-- The line a list of tokens stands for, if it is one. -/
def parseTokens : List Token → Option AsmLine
  | .name m :: ts =>
    if m = "PACK".toList then (headerTail ts).map .pack
    else if m = "PACK.WB".toList then (headerTail ts).map .packWb
    else if m = "RB.UNPACK".toList then (if ts = [] then some .rbUnpack else none)
    else
      match ts with
      | .num v :: rest =>
        if m = "UNPACK".toList then (fits 16 v).bind fun n => (payloadTail rest).map (.unpack n)
        else if m = "RB.BIND".toList then (fits 16 v).bind fun n => (payloadTail rest).map (.rbBind n)
        else if m = "WB.WRITE".toList then (fits 16 v).bind fun n => (payloadTail rest).map (.wbWrite n)
        else if m = "CMD".toList then (fits 32 v).bind fun w => (payloadTail rest).map (.cmd w)
        else if rest ≠ [] then none
        else if m = "RB.READ".toList then (fits 16 v).map .rbRead
        else if m = "WB.INIT".toList then (fits 16 v).map .wbInit
        else if m = "RB.SKIP".toList then (fits 16 v).map .rbSkip
        else none
      | _ => none
  | _ => none

/-- Reads one line of the notation (R78; log entry 13). -/
def parseLine (text : String) : Option AsmLine := parseTokens (tokens text.toList [] [])

end Sys2Proof.Machine
end

