-- ==== Sys2Proof/Machine/Reference.lean ====
section
/-! DEFINITION. The spec's own `Exec` (R76) over the spec's own state tuple (R43), written beside the machine: the regions are
byte arrays of exactly RB_LEN and WB_CAP bytes, the registers naturals, and the response is the function's value. The
machine's step is meant to agree with it; nothing of the machine is built on it. -/

namespace Sys2Proof.Machine

/-- The tuple of R43, with the regions as byte arrays. -/
structure Block where
  rbMem : List Byte
  rbLen : Nat
  rbCur : Nat
  wbMem : List Byte
  wbCap : Nat
  wbCur : Nat
deriving DecidableEq, Repr

/-- `raise E` (R161). -/
def specRaise (e : Status) (b : Block) : Response × Block := ({ status := e }, b)

/-- UNPACK's pseudocode (R103). -/
def specUnpack (n : Nat) (payload : List Byte) (b : Block) : Response × Block :=
  if n < 12 then specRaise .truncatedInput b
  else ({ status := .ok, hdr := some (unpackHeader payload), count := some 12 }, b)

/-- RB_BIND's pseudocode (R130). -/
def specRbBind (n : Nat) (payload : List Byte) (b : Block) : Response × Block :=
  ({ status := .ok }, { b with rbMem := payload, rbLen := n, rbCur := 0 })

/-- RB_READ's pseudocode (R131). -/
def specRbRead (n : Nat) (b : Block) : Response × Block :=
  if b.rbCur + n > b.rbLen then specRaise .outOfBounds b
  else
    ({ status := .ok, data := some ((b.rbMem.drop b.rbCur).take n) }, { b with rbCur := b.rbCur + n })

/-- WB_INIT's pseudocode (R132). -/
def specWbInit (n : Nat) (b : Block) : Response × Block :=
  ({ status := .ok }, { b with wbMem := List.replicate n 0, wbCap := n, wbCur := 0 })

/-- WB_WRITE's pseudocode (R133). -/
def specWbWrite (n : Nat) (payload : List Byte) (b : Block) : Response × Block :=
  if b.wbCur + n > b.wbCap then specRaise .outOfBounds b
  else
    ({ status := .ok },
      { b with
        wbMem := b.wbMem.take b.wbCur ++ payload ++ b.wbMem.drop (b.wbCur + n)
        wbCur := b.wbCur + n })

/-- `Exec(word, H_in, payload)` (R76), check by check. -/
def specExec (c : Command) (b : Block) : Response × Block :=
  let op := (c.word.extractLsb' 28 4).toNat
  let rsv := (c.word.extractLsb' 16 12).toNat
  let n := (c.word.extractLsb' 0 16).toNat
  let need := if op = 2 ∨ op = 3 ∨ op = 6 then n else 0
  if ¬ (1 ≤ op ∧ op ≤ 6) then specRaise .illegalCommand b
  else if rsv ≠ 0 then specRaise .illegalCommand b
  else if op = 1 ∧ n ≠ 0 then specRaise .illegalCommand b
  else if c.payload.length ≠ need then specRaise .illegalCommand b
  else if op = 1 then ({ status := .ok, data := some (packHeader c.hIn) }, b)
  else if op = 2 then specUnpack n c.payload b
  else if op = 3 then specRbBind n c.payload b
  else if op = 4 then specRbRead n b
  else if op = 5 then specWbInit n b
  else specWbWrite n c.payload b

/-- The spec's tuple in a state of the machine. -/
def State.block (s : State) : Block where
  rbMem := readRegionBytes s
  rbLen := s.rbLen.toNat
  rbCur := s.rbCur.toNat
  wbMem := writeRegionBytes s
  wbCap := s.wbCap.toNat
  wbCur := s.wbCur.toNat

end Sys2Proof.Machine
end

