-- ==== Sys2Proof/WellFormed.lean ====
section
/-! DEFINITION. When a command is legal: the four conditions of R75, and the payload length each operation requires (R73).
The model's step does not use these checks: they are the spec's own words, for the statements to hold the step against. -/

namespace Sys2Proof

/-- The last column of R73's table: the payload length the operation requires. -/
def Instr.payloadNeed : Instr → Nat
  | .pack => 0
  | .unpack n => n.toNat
  | .rbBind n => n.toNat
  | .rbRead _ => 0
  | .wbInit _ => 0
  | .wbWrite n => n.toNat

/-- An instruction is well formed with a payload when the payload has the required length (R75, condition 4). Every value of
the 16-bit field N is itself legal (R74), so an instruction alone has nothing else to check. -/
abbrev Instr.wellFormed (i : Instr) (payload : List Byte) : Prop := payload.length = i.payloadNeed

/-- R75, condition 1 negated: OP is one of 1 to 6. -/
abbrev Command.opAssigned (c : Command) : Prop :=
  1 ≤ (c.word.extractLsb' 28 4).toNat ∧ (c.word.extractLsb' 28 4).toNat ≤ 6

/-- R75, condition 2 negated: RSV = 0. -/
abbrev Command.rsvZero (c : Command) : Prop := c.word.extractLsb' 16 12 = 0

/-- R75, condition 3 negated: a PACK has N = 0. -/
abbrev Command.packCountZero (c : Command) : Prop :=
  c.word.extractLsb' 28 4 = 1 → c.word.extractLsb' 0 16 = 0

/-- R76's `need`: N for OP 2, 3 and 6, and 0 otherwise. -/
def Command.need (c : Command) : Nat :=
  if c.word.extractLsb' 28 4 = 2 ∨ c.word.extractLsb' 28 4 = 3 ∨ c.word.extractLsb' 28 4 = 6 then
    (c.word.extractLsb' 0 16).toNat
  else 0

/-- R75, condition 4 negated: the payload has the required length. -/
abbrev Command.payloadFits (c : Command) : Prop := c.payload.length = c.need

/-- A command is legal when none of R75's four conditions holds. -/
abbrev Command.legal (c : Command) : Prop :=
  c.opAssigned ∧ c.rsvZero ∧ c.packCountZero ∧ c.payloadFits

end Sys2Proof
end

