-- ==== Sys2Proof/Safety.lean ====
section
/-! DEFINITION. What counts as a good state, and the outcome of a step in the terms the statements use. -/

namespace Sys2Proof.Machine

/-- The well-formedness conditions of a state (R43): both regions in the model's canonical form and no longer than their
length registers say, and the invariants of R27, R28 and R29. -/
structure State.Inv (s : State) : Prop where
  /-- RB_MEM keeps the canonical form (log entry 4). -/
  rbWf : s.rbMem.wf
  /-- WB_MEM keeps the canonical form (log entry 4). -/
  wbWf : s.wbMem.wf
  /-- `len(RB_MEM) = RB_LEN` (R43): no byte stands at or past RB_LEN. -/
  rbWithin : s.rbMem.within s.rbLen.toNat
  /-- `len(WB_MEM) = WB_CAP` (R43): no byte stands at or past WB_CAP. -/
  wbWithin : s.wbMem.within s.wbCap.toNat
  /-- Read-channel invariant (R27). -/
  rbCursor : s.rbCur ≤ s.rbLen
  /-- Write-channel invariant (R28). -/
  wbCursor : s.wbCur ≤ s.wbCap
  /-- Zero tail (R29). -/
  zeroTail : ∀ i, s.wbCur.toNat ≤ i → i < s.wbCap.toNat → s.wbMem.read i = 0

/-- The state after a step, if it answers one. -/
def nextState (o : Out) : Option State :=
  match o with
  | .next s => some s
  | .fault _ => none
  | .refused _ => none

/-- The status a step's state reports, if its newest reply is a response. -/
def lastStatus (s : State) : Option Status := (lastResponse s).map (·.status)

/-- `s` as a command's meaning finds it: the host's interaction taken, the command on the port (R20, R70). -/
def State.issued (c : Command) (rest : List HostAction) (s : State) : State := (s.setPending rest).setPort c

/-- Two states hold the same block: the spec's six pieces of state are equal (R43). -/
def State.sameBlock (s t : State) : Prop :=
  t.rbMem = s.rbMem ∧ t.rbLen = s.rbLen ∧ t.rbCur = s.rbCur ∧
    t.wbMem = s.wbMem ∧ t.wbCap = s.wbCap ∧ t.wbCur = s.wbCur

end Sys2Proof.Machine
end

