-- ==== Sys2Proof/Certificates/Slice0/Obligations.lean ====
section
/-! DEFINITION. The statements for the provers, from the numbered rules of spec/. -/

open Sys2Proof Sys2Proof.Machine

/-! ### Encoding and dispatch -/

/-- R76, R20: when the host's next interaction issues a command whose word decodes to `i`, the step is exec of `i` on the state
with that interaction taken and the command on the port. -/
def Obligations.StepRunsDecodedInstruction : Prop :=
  ∀ (s : State) (c : Command) (rest : List HostAction) (i : Instr),
    s.pending = .issue c :: rest → decodeWord c.word = .ok i → step s = exec i (s.issued c rest)

/-- R73, 95_test_vectors.md: words written out from the spec, one for each operation, and the illegal words I1 to I6. -/
def Obligations.SpecWordsDecode : Prop :=
  decodeWord 0x10000000 = .ok .pack ∧ decodeWord 0x2000000C = .ok (.unpack 12) ∧
  decodeWord 0x3000000E = .ok (.rbBind 14) ∧ decodeWord 0x4000FFFF = .ok (.rbRead 65535) ∧
  decodeWord 0x50000010 = .ok (.wbInit 16) ∧ decodeWord 0x60000002 = .ok (.wbWrite 2) ∧
  decodeWord 0x00000000 = .error .reservedOp ∧ decodeWord 0x70000000 = .error .reservedOp ∧
  decodeWord 0xF0000000 = .error .reservedOp ∧ decodeWord 0x10000001 = .error .packCount ∧
  decodeWord 0x10010000 = .error .reservedBits ∧ decodeWord 0x40010004 = .error .reservedBits

/-- R74: which words select which operation, and that every other word is illegal. -/
def Obligations.DecodeSelectsByTable : Prop :=
  ∀ w : Word,
    (decodeWord w = .ok .pack ↔ w = 0x10000000) ∧
    (∀ n, decodeWord w = .ok (.unpack n) ↔ w.extractLsb' 16 16 = 0x2000 ∧ n = w.extractLsb' 0 16) ∧
    (∀ n, decodeWord w = .ok (.rbBind n) ↔ w.extractLsb' 16 16 = 0x3000 ∧ n = w.extractLsb' 0 16) ∧
    (∀ n, decodeWord w = .ok (.rbRead n) ↔ w.extractLsb' 16 16 = 0x4000 ∧ n = w.extractLsb' 0 16) ∧
    (∀ n, decodeWord w = .ok (.wbInit n) ↔ w.extractLsb' 16 16 = 0x5000 ∧ n = w.extractLsb' 0 16) ∧
    (∀ n, decodeWord w = .ok (.wbWrite n) ↔ w.extractLsb' 16 16 = 0x6000 ∧ n = w.extractLsb' 0 16) ∧
    (w ≠ 0x10000000 → w.extractLsb' 16 16 ∉ [0x2000#16, 0x3000, 0x4000, 0x5000, 0x6000] →
      ∃ e, decodeWord w = .error e)

/-- R71, R73: decoding an encoded instruction gives it back, and a word that decodes to an instruction is its encoding. -/
def Obligations.EncodingIsExact : Prop :=
  ∀ i : Instr, decodeWord (encode i) = .ok i ∧ ∀ w : Word, decodeWord w = .ok i → w = encode i

/-- R75: an illegal command, by any of the four conditions, is answered ILLEGAL_COMMAND and nothing else happens; a legal one
is answered otherwise. -/
def Obligations.IllegalCommandsAnswered : Prop :=
  ∀ (s : State) (c : Command) (rest : List HostAction), s.pending = .issue c :: rest →
    (¬ c.legal → step s = .next ((s.issued c rest).reply (.response { status := .illegalCommand }))) ∧
    (c.legal → ∃ t, step s = .next t ∧ lastStatus t ≠ some .illegalCommand)

/-- R164: the payload's length is checked before the operation's own check, so a wrong length is ILLEGAL_COMMAND whatever
else is wrong. -/
def Obligations.IllegalComesFirst : Prop :=
  ∀ (i : Instr) (s : State), ¬ i.wellFormed s.port.payload →
    exec i s = .next (s.reply (.response { status := .illegalCommand }))

/-- R76: on a state that meets the invariant, one step of the machine is the spec's `Exec`: the same response, and the same
tuple of R43 after it, with the regions read as byte arrays. -/
def Obligations.StepRefinesSpecExec : Prop :=
  ∀ (s : State) (c : Command) (rest : List HostAction), s.Inv → s.pending = .issue c :: rest →
    ∃ t, step s = .next t ∧ t.pending = rest ∧
      t.replies = .response (specExec c s.block).1 :: s.replies ∧ t.block = (specExec c s.block).2

/-- R78: what the mnemonics assemble to: PACK to 0x10000000, the others to `OP << 28 | N`, each with its payload. The zero H_in
of every line but PACK is no rule of the spec: it is the model's choice, log entry 13 (DESIGN CHOICE). R31 gives the value no
effect, but for CMD with the word 0x10000000, which is PACK and samples it. -/
def Obligations.AssemblerWords : Prop :=
  ∀ (s : State) (h : HIn) (n : Len) (w : Word) (p : List Byte),
    runLine (.pack h) s = issueCommand ⟨0x10000000, h, []⟩ s ∧
    runLine (.unpack n p) s = issueCommand ⟨((2 : Word) <<< 28) ||| n.setWidth 32, {}, p⟩ s ∧
    runLine (.rbBind n p) s = issueCommand ⟨((3 : Word) <<< 28) ||| n.setWidth 32, {}, p⟩ s ∧
    runLine (.rbRead n) s = issueCommand ⟨((4 : Word) <<< 28) ||| n.setWidth 32, {}, []⟩ s ∧
    runLine (.wbInit n) s = issueCommand ⟨((5 : Word) <<< 28) ||| n.setWidth 32, {}, []⟩ s ∧
    runLine (.wbWrite n p) s = issueCommand ⟨((6 : Word) <<< 28) ||| n.setWidth 32, {}, p⟩ s ∧
    runLine (.cmd w p) s = issueCommand ⟨w, {}, p⟩ s

/-! ### Header codec -/

/-- R101: PACK with an empty payload answers OK with the 12 bytes of the pseudocode and changes nothing; a payload makes it
illegal. -/
def Obligations.PackResult : Prop :=
  encode .pack = 0x10000000 ∧
  ∀ (s : State),
    (s.port.payload = [] →
      exec .pack s = .next (s.reply (.response
        { status := .ok
          data := some
            [s.port.hIn.id.extractLsb' 8 8, s.port.hIn.id.extractLsb' 0 8,
             (s.port.hIn.qr.setWidth 8 <<< 7) ||| ((s.port.hIn.opcodeIn.extractLsb' 0 4).setWidth 8 <<< 3) |||
               (s.port.hIn.aa.setWidth 8 <<< 2) ||| (s.port.hIn.tc.setWidth 8 <<< 1) ||| s.port.hIn.rd.setWidth 8,
             (s.port.hIn.ra.setWidth 8 <<< 7) ||| ((0b000#3).setWidth 8 <<< 4) |||
               (s.port.hIn.rcodeIn.extractLsb' 0 4).setWidth 8,
             s.port.hIn.qdcount.extractLsb' 8 8, s.port.hIn.qdcount.extractLsb' 0 8,
             s.port.hIn.ancount.extractLsb' 8 8, s.port.hIn.ancount.extractLsb' 0 8,
             s.port.hIn.nscount.extractLsb' 8 8, s.port.hIn.nscount.extractLsb' 0 8,
             s.port.hIn.arcount.extractLsb' 8 8, s.port.hIn.arcount.extractLsb' 0 8] }))) ∧
    (s.port.payload ≠ [] → exec .pack s = .next (s.reply (.response { status := .illegalCommand })))

/-- R103: UNPACK of `n` bytes answers TRUNCATED_INPUT when n < 12, and otherwise OK with the fields of the pseudocode and
count 12; either way it changes nothing; a payload of another length makes it illegal. -/
def Obligations.UnpackResult : Prop :=
  ∀ (n : Len) (s : State) (b : Nat → Byte), (∀ k, b k = s.port.payload.getD k 0) →
    encode (.unpack n) = 0x20000000 ||| n.setWidth 32 ∧
    (s.port.payload.length = n.toNat → n.toNat < 12 →
      exec (.unpack n) s = .next (s.reply (.response { status := .truncatedInput }))) ∧
    (s.port.payload.length = n.toNat → 12 ≤ n.toNat →
      exec (.unpack n) s = .next (s.reply (.response
        { status := .ok
          hdr := some
            { id := ((b 0).setWidth 16 <<< 8) ||| (b 1).setWidth 16
              qr := (b 2).extractLsb' 7 1
              opcode := (b 2).extractLsb' 3 4
              aa := (b 2).extractLsb' 2 1
              tc := (b 2).extractLsb' 1 1
              rd := (b 2).extractLsb' 0 1
              ra := (b 3).extractLsb' 7 1
              rcode := (b 3).extractLsb' 0 4
              qdcount := ((b 4).setWidth 16 <<< 8) ||| (b 5).setWidth 16
              ancount := ((b 6).setWidth 16 <<< 8) ||| (b 7).setWidth 16
              nscount := ((b 8).setWidth 16 <<< 8) ||| (b 9).setWidth 16
              arcount := ((b 10).setWidth 16 <<< 8) ||| (b 11).setWidth 16 }
          count := some 12 }))) ∧
    (s.port.payload.length ≠ n.toNat →
      exec (.unpack n) s = .next (s.reply (.response { status := .illegalCommand })))

/-- R100: the wire layout, bit by bit, of the bytes PACK answers with and of the header UNPACK reads. -/
def Obligations.WireLayoutBitByBit : Prop :=
  (∀ (s : State), s.port.payload = [] →
    exec .pack s = .next (s.reply (.response { status := .ok, data := some (packHeader s.port.hIn) }))) ∧
  (∀ (n : Len) (s : State), s.port.payload.length = n.toNat → 12 ≤ n.toNat →
    exec (.unpack n) s = .next (s.reply (.response
      { status := .ok, hdr := some (unpackHeader s.port.payload), count := some 12 }))) ∧
  (∀ (h : HIn), (packHeader h).length = 12 ∧
    (∀ i < 8, (byteAt (packHeader h) 0).getLsbD i = h.id.getLsbD (8 + i)) ∧
    (∀ i < 8, (byteAt (packHeader h) 1).getLsbD i = h.id.getLsbD i) ∧
    (byteAt (packHeader h) 2).getLsbD 7 = h.qr.getLsbD 0 ∧
    (∀ i < 4, (byteAt (packHeader h) 2).getLsbD (3 + i) = h.opcodeIn.getLsbD i) ∧
    (byteAt (packHeader h) 2).getLsbD 2 = h.aa.getLsbD 0 ∧
    (byteAt (packHeader h) 2).getLsbD 1 = h.tc.getLsbD 0 ∧
    (byteAt (packHeader h) 2).getLsbD 0 = h.rd.getLsbD 0 ∧
    (byteAt (packHeader h) 3).getLsbD 7 = h.ra.getLsbD 0 ∧
    (∀ i < 3, (byteAt (packHeader h) 3).getLsbD (4 + i) = false) ∧
    (∀ i < 4, (byteAt (packHeader h) 3).getLsbD i = h.rcodeIn.getLsbD i) ∧
    (∀ i < 8, (byteAt (packHeader h) 4).getLsbD i = h.qdcount.getLsbD (8 + i)) ∧
    (∀ i < 8, (byteAt (packHeader h) 5).getLsbD i = h.qdcount.getLsbD i) ∧
    (∀ i < 8, (byteAt (packHeader h) 6).getLsbD i = h.ancount.getLsbD (8 + i)) ∧
    (∀ i < 8, (byteAt (packHeader h) 7).getLsbD i = h.ancount.getLsbD i) ∧
    (∀ i < 8, (byteAt (packHeader h) 8).getLsbD i = h.nscount.getLsbD (8 + i)) ∧
    (∀ i < 8, (byteAt (packHeader h) 9).getLsbD i = h.nscount.getLsbD i) ∧
    (∀ i < 8, (byteAt (packHeader h) 10).getLsbD i = h.arcount.getLsbD (8 + i)) ∧
    (∀ i < 8, (byteAt (packHeader h) 11).getLsbD i = h.arcount.getLsbD i)) ∧
  (∀ (b : List Byte),
    (∀ i < 8, (unpackHeader b).id.getLsbD (8 + i) = (byteAt b 0).getLsbD i) ∧
    (∀ i < 8, (unpackHeader b).id.getLsbD i = (byteAt b 1).getLsbD i) ∧
    (unpackHeader b).qr.getLsbD 0 = (byteAt b 2).getLsbD 7 ∧
    (∀ i < 4, (unpackHeader b).opcode.getLsbD i = (byteAt b 2).getLsbD (3 + i)) ∧
    (unpackHeader b).aa.getLsbD 0 = (byteAt b 2).getLsbD 2 ∧
    (unpackHeader b).tc.getLsbD 0 = (byteAt b 2).getLsbD 1 ∧
    (unpackHeader b).rd.getLsbD 0 = (byteAt b 2).getLsbD 0 ∧
    (unpackHeader b).ra.getLsbD 0 = (byteAt b 3).getLsbD 7 ∧
    (∀ i < 4, (unpackHeader b).rcode.getLsbD i = (byteAt b 3).getLsbD i) ∧
    (∀ i < 8, (unpackHeader b).qdcount.getLsbD (8 + i) = (byteAt b 4).getLsbD i) ∧
    (∀ i < 8, (unpackHeader b).qdcount.getLsbD i = (byteAt b 5).getLsbD i) ∧
    (∀ i < 8, (unpackHeader b).ancount.getLsbD (8 + i) = (byteAt b 6).getLsbD i) ∧
    (∀ i < 8, (unpackHeader b).ancount.getLsbD i = (byteAt b 7).getLsbD i) ∧
    (∀ i < 8, (unpackHeader b).nscount.getLsbD (8 + i) = (byteAt b 8).getLsbD i) ∧
    (∀ i < 8, (unpackHeader b).nscount.getLsbD i = (byteAt b 9).getLsbD i) ∧
    (∀ i < 8, (unpackHeader b).arcount.getLsbD (8 + i) = (byteAt b 10).getLsbD i) ∧
    (∀ i < 8, (unpackHeader b).arcount.getLsbD i = (byteAt b 11).getLsbD i))

/-- R109: a legal PACK always answers OK with 12 bytes of data. -/
def Obligations.PackNeverFails : Prop :=
  ∀ (s : State) (h : HIn) (rest : List HostAction), s.pending = .issue ⟨0x10000000, h, []⟩ :: rest →
    ∃ t d, step s = .next t ∧ lastResponse t = some { status := .ok, data := some d } ∧ d.length = 12

/-- R102: bits above [3:0] of the two 4-bit inputs do not change PACK's bytes, and 0x1F packs as OPCODE 0xF. -/
def Obligations.MaskedInputsPackAlike : Prop :=
  (∀ (h : HIn) (o r : BitVec 8), (∀ i < 4, o.getLsbD i = h.opcodeIn.getLsbD i) →
    (∀ i < 4, r.getLsbD i = h.rcodeIn.getLsbD i) →
    packHeader { h with opcodeIn := o, rcodeIn := r } = packHeader h) ∧
  byteAt (packHeader { opcodeIn := 0x1F }) 2 = 0x78

/-- R103 and R105, the corner cases: bytes past index 11 and the Z bits of byte 3 do not change what UNPACK answers. -/
def Obligations.UnpackIgnoresTailAndZ : Prop :=
  ∀ (n n' : Len) (s s' : State), s.port.payload.length = n.toNat → s'.port.payload.length = n'.toNat →
    12 ≤ n.toNat → 12 ≤ n'.toNat →
    (∀ k < 12, k ≠ 3 → byteAt s.port.payload k = byteAt s'.port.payload k) →
    byteAt s.port.payload 3 &&& 0x8F = byteAt s'.port.payload 3 &&& 0x8F →
    ∃ r, exec (.unpack n) s = .next (s.reply (.response r)) ∧ exec (.unpack n') s' = .next (s'.reply (.response r)) ∧
      r.status = .ok

/-- R106: UNPACK of PACK's 12 bytes gives the operand back, its two 4-bit fields masked, from any state. -/
def Obligations.HeaderRoundTrip : Prop :=
  ∀ (h : HIn) (s : State), ∃ t u,
    issueCommand (encodeCommand .pack h []) s = .next t ∧
    issueCommand (encodeCommand (.unpack 12) {} (lastData t)) t = .next u ∧
    lastResponse u = some
      { status := .ok
        hdr := some
          { id := h.id, qr := h.qr, opcode := h.opcodeIn.extractLsb' 0 4, aa := h.aa, tc := h.tc, rd := h.rd, ra := h.ra,
            rcode := h.rcodeIn.extractLsb' 0 4, qdcount := h.qdcount, ancount := h.ancount, nscount := h.nscount,
            arcount := h.arcount }
        count := some 12 }

/-- R107: packing what UNPACK reads from 12 bytes gives them back with byte 3 bits [6:4] cleared, and gives exactly them when
those bits were 000 and only then. -/
def Obligations.HeaderReverseRoundTrip : Prop :=
  ∀ (b : List Byte) (s : State), b.length = 12 → ∃ t u o d,
    issueCommand (encodeCommand (.unpack 12) {} b) s = .next t ∧
    lastResponse t = some { status := .ok, hdr := some o, count := some 12 } ∧
    issueCommand (encodeCommand .pack (operandOf o) []) t = .next u ∧
    lastResponse u = some { status := .ok, data := some d } ∧
    d = b.set 3 (byteAt b 3 &&& 0x8F) ∧ (d = b ↔ (byteAt b 3).extractLsb' 4 3 = 0)

/-- R108: a PACK whose operand is zero but for one flag answers 12 bytes that are zero but for one bit. -/
def Obligations.OneFlagOneBit : Prop :=
  ∀ (s : State), s.port.payload = [] →
    (s.port.hIn = { qr := 1 } → exec .pack s = .next (s.reply (.response
      { status := .ok, data := some [0, 0, 0x80, 0, 0, 0, 0, 0, 0, 0, 0, 0] }))) ∧
    (s.port.hIn = { aa := 1 } → exec .pack s = .next (s.reply (.response
      { status := .ok, data := some [0, 0, 0x04, 0, 0, 0, 0, 0, 0, 0, 0, 0] }))) ∧
    (s.port.hIn = { tc := 1 } → exec .pack s = .next (s.reply (.response
      { status := .ok, data := some [0, 0, 0x02, 0, 0, 0, 0, 0, 0, 0, 0, 0] }))) ∧
    (s.port.hIn = { rd := 1 } → exec .pack s = .next (s.reply (.response
      { status := .ok, data := some [0, 0, 0x01, 0, 0, 0, 0, 0, 0, 0, 0, 0] }))) ∧
    (s.port.hIn = { ra := 1 } → exec .pack s = .next (s.reply (.response
      { status := .ok, data := some [0, 0, 0, 0x80, 0, 0, 0, 0, 0, 0, 0, 0] })))

/-- R30: PACK and UNPACK leave all six pieces of state as they were, whatever the status, and answer the same whatever the
channels hold. -/
def Obligations.CodecHoldsNoState : Prop :=
  ∀ (i : Instr), (i = .pack ∨ ∃ n, i = .unpack n) → ∀ (s s' : State), s.port = s'.port →
    ∃ t t' r, exec i s = .next t ∧ exec i s' = .next t' ∧
      s.sameBlock t ∧ t.pending = s.pending ∧ t.port = s.port ∧
      (∀ a, t.rbMem.read a = s.rbMem.read a) ∧ (∀ a, t.wbMem.read a = s.wbMem.read a) ∧
      t.replies = .response r :: s.replies ∧ t'.replies = .response r :: s'.replies

/-! ### Read channel -/

/-- R130: RB.BIND makes the read region a copy of the payload, with the cursor at 0, and touches nothing else; a payload of
another length makes it illegal. -/
def Obligations.BindResult : Prop :=
  ∀ (n : Len) (s : State),
    encode (.rbBind n) = 0x30000000 ||| n.setWidth 32 ∧
    (s.port.payload.length = n.toNat → ∃ t, exec (.rbBind n) s = .next t ∧
      readRegionBytes t = s.port.payload ∧ t.rbMem.wf ∧ t.rbMem.within n.toNat ∧ t.rbLen = n ∧ t.rbCur = 0 ∧
      t.replies = .response { status := .ok } :: s.replies ∧
      t.wbMem = s.wbMem ∧ t.wbCap = s.wbCap ∧ t.wbCur = s.wbCur ∧ t.pending = s.pending ∧ t.port = s.port) ∧
    (s.port.payload.length ≠ n.toNat →
      exec (.rbBind n) s = .next (s.reply (.response { status := .illegalCommand })))

/-- R131: RB.READ within the region answers the bytes from the cursor on and moves the cursor by n; past the region's end it
answers OUT_OF_BOUNDS and changes nothing; a payload makes it illegal. -/
def Obligations.ReadResult : Prop :=
  ∀ (n : Len) (s : State),
    encode (.rbRead n) = 0x40000000 ||| n.setWidth 32 ∧
    (s.port.payload = [] → s.rbCur.toNat + n.toNat ≤ s.rbLen.toNat → ∃ t d, exec (.rbRead n) s = .next t ∧
      d.length = n.toNat ∧ (∀ k < n.toNat, byteAt d k = s.rbMem.read (s.rbCur.toNat + k)) ∧
      t.rbCur.toNat = s.rbCur.toNat + n.toNat ∧
      t.replies = .response { status := .ok, data := some d } :: s.replies ∧
      t.rbMem = s.rbMem ∧ t.rbLen = s.rbLen ∧
      t.wbMem = s.wbMem ∧ t.wbCap = s.wbCap ∧ t.wbCur = s.wbCur ∧ t.pending = s.pending ∧ t.port = s.port) ∧
    (s.port.payload = [] → s.rbLen.toNat < s.rbCur.toNat + n.toNat →
      exec (.rbRead n) s = .next (s.reply (.response { status := .outOfBounds }))) ∧
    (s.port.payload ≠ [] → exec (.rbRead n) s = .next (s.reply (.response { status := .illegalCommand })))

/-- R135: two reads return together what one read of the sum returns, and leave the same cursor. -/
def Obligations.SplitReads : Prop :=
  ∀ (s : State) (a b : Len), s.rbCur.toNat + a.toNat + b.toNat ≤ s.rbLen.toNat →
    ∃ t u v d1 d2,
      issueCommand (encodeCommand (.rbRead a) {} []) s = .next t ∧
      issueCommand (encodeCommand (.rbRead b) {} []) t = .next u ∧
      issueCommand (encodeCommand (.rbRead (a + b)) {} []) s = .next v ∧
      lastResponse t = some { status := .ok, data := some d1 } ∧
      lastResponse u = some { status := .ok, data := some d2 } ∧
      lastResponse v = some { status := .ok, data := some (d1 ++ d2) } ∧
      u.rbCur = v.rbCur

/-- The frame of RB.BIND and RB.READ: nothing of the write channel and nothing of the host interface changes but for one more
reply, RB.READ changes no byte of the read region and not its length, and an error changes nothing at all. -/
def Obligations.ReadChannelFrame : Prop :=
  ∀ (i : Instr) (n : Len) (s t : State), (i = .rbBind n ∨ i = .rbRead n) → exec i s = .next t →
    t.wbMem = s.wbMem ∧ (∀ a, t.wbMem.read a = s.wbMem.read a) ∧ t.wbCap = s.wbCap ∧ t.wbCur = s.wbCur ∧
    t.pending = s.pending ∧ t.port = s.port ∧ (∃ r, t.replies = .response r :: s.replies) ∧
    (i = .rbRead n → (∀ a, t.rbMem.read a = s.rbMem.read a) ∧ t.rbLen = s.rbLen) ∧
    (lastStatus t ≠ some .ok → s.sameBlock t)

/-! ### Write channel -/

/-- R132: WB.INIT makes the write region n zero bytes, with the cursor at 0, and touches nothing else; a payload makes it
illegal. -/
def Obligations.InitResult : Prop :=
  ∀ (n : Len) (s : State),
    encode (.wbInit n) = 0x50000000 ||| n.setWidth 32 ∧
    (s.port.payload = [] → ∃ t, exec (.wbInit n) s = .next t ∧
      writeRegionBytes t = List.replicate n.toNat 0 ∧ t.wbMem.wf ∧ t.wbMem.within n.toNat ∧ t.wbCap = n ∧ t.wbCur = 0 ∧
      t.replies = .response { status := .ok } :: s.replies ∧
      t.rbMem = s.rbMem ∧ t.rbLen = s.rbLen ∧ t.rbCur = s.rbCur ∧ t.pending = s.pending ∧ t.port = s.port) ∧
    (s.port.payload ≠ [] → exec (.wbInit n) s = .next (s.reply (.response { status := .illegalCommand })))

/-- R133: WB.WRITE within the capacity stores payload byte k at offset WB_CUR + k, changes no other byte, and moves the cursor
by n; past the capacity it answers OUT_OF_BOUNDS and changes nothing; a payload of another length makes it illegal. The
region's canonical form, kept by every step (`StepKeepsInvariant`), is a premise of the stored bytes' values. -/
def Obligations.WriteResult : Prop :=
  ∀ (n : Len) (s : State),
    encode (.wbWrite n) = 0x60000000 ||| n.setWidth 32 ∧
    (s.wbMem.wf → s.port.payload.length = n.toNat → s.wbCur.toNat + n.toNat ≤ s.wbCap.toNat →
      ∃ t, exec (.wbWrite n) s = .next t ∧
      (∀ k < n.toNat, t.wbMem.read (s.wbCur.toNat + k) = byteAt s.port.payload k) ∧
      (∀ a, a < s.wbCur.toNat ∨ s.wbCur.toNat + n.toNat ≤ a → t.wbMem.read a = s.wbMem.read a) ∧
      t.wbCur.toNat = s.wbCur.toNat + n.toNat ∧ t.wbCap = s.wbCap ∧
      t.replies = .response { status := .ok } :: s.replies ∧
      t.rbMem = s.rbMem ∧ t.rbLen = s.rbLen ∧ t.rbCur = s.rbCur ∧ t.pending = s.pending ∧ t.port = s.port) ∧
    (s.port.payload.length = n.toNat → s.wbCap.toNat < s.wbCur.toNat + n.toNat →
      exec (.wbWrite n) s = .next (s.reply (.response { status := .outOfBounds }))) ∧
    (s.port.payload.length ≠ n.toNat →
      exec (.wbWrite n) s = .next (s.reply (.response { status := .illegalCommand })))

/-- R136: two writes leave the region and the cursor that one write of both payloads leaves. -/
def Obligations.SplitWrites : Prop :=
  ∀ (s : State) (p1 p2 : List Byte), s.wbCur.toNat + p1.length + p2.length ≤ s.wbCap.toNat →
    p1.length + p2.length ≤ 65535 →
    ∃ t u v,
      issueCommand (encodeCommand (.wbWrite (BitVec.ofNat 16 p1.length)) {} p1) s = .next t ∧
      issueCommand (encodeCommand (.wbWrite (BitVec.ofNat 16 p2.length)) {} p2) t = .next u ∧
      issueCommand (encodeCommand (.wbWrite (BitVec.ofNat 16 (p1 ++ p2).length)) {} (p1 ++ p2)) s = .next v ∧
      lastStatus t = some .ok ∧ lastStatus u = some .ok ∧ lastStatus v = some .ok ∧
      u.wbMem = v.wbMem ∧ u.wbCur = v.wbCur

/-- The frame of WB.INIT and WB.WRITE: nothing of the read channel and nothing of the host interface changes but for one more
reply; WB.WRITE changes no byte outside the n bytes from WB_CUR on, and not the capacity; an error changes nothing at all. -/
def Obligations.WriteChannelFrame : Prop :=
  ∀ (i : Instr) (n : Len) (s t : State), (i = .wbInit n ∨ i = .wbWrite n) → exec i s = .next t →
    t.rbMem = s.rbMem ∧ (∀ a, t.rbMem.read a = s.rbMem.read a) ∧ t.rbLen = s.rbLen ∧ t.rbCur = s.rbCur ∧
    t.pending = s.pending ∧ t.port = s.port ∧ (∃ r, t.replies = .response r :: s.replies) ∧
    (i = .wbWrite n → t.wbCap = s.wbCap ∧
      ∀ a, a < s.wbCur.toNat ∨ s.wbCur.toNat + n.toNat ≤ a → t.wbMem.read a = s.wbMem.read a) ∧
    (lastStatus t ≠ some .ok → s.sameBlock t)

/-- R42: after WB.INIT and any writes that fit together, with no other command and no failed write between them (ErrorsWriteNothing,
ChannelsAreIndependent and OnlyNamedCommandsWrite say what those change), the outgoing message is the bytes written, in the order
written, and the bytes from WB_CUR up to WB_CAP are zero. -/
def Obligations.OutgoingMessageIsTheWrites : Prop :=
  ∀ (s : State) (n : Len) (ps : List (List Byte)), ps.flatten.length ≤ n.toNat →
    ∃ t, issueAll (encodeCommand (.wbInit n) {} [] ::
          ps.map fun p => encodeCommand (.wbWrite (BitVec.ofNat 16 p.length)) {} p) s = .next t ∧
      outgoingMessage t = ps.flatten ∧ t.wbCap = n ∧ t.wbCur.toNat = ps.flatten.length ∧
      (∀ a, t.wbCur.toNat ≤ a → a < t.wbCap.toNat → t.wbMem.read a = 0) ∧
      t.replies = List.replicate (ps.length + 1) (.response { status := .ok }) ++ s.replies

/-! ### Both channels and every command -/

/-- R53: `MemRead` gives the n bytes from an offset on, and is defined only within the read region. -/
def Obligations.MemReadRule : Prop :=
  ∀ (s : State) (a n : Nat),
    (a + n ≤ s.rbLen.toNat → ∃ d, memRead s a n = some d ∧ d.length = n ∧
      ∀ k < n, byteAt d k = s.rbMem.read (a + k)) ∧
    (s.rbLen.toNat < a + n → memRead s a n = none) ∧
    (a ≤ s.rbLen.toNat → memRead s a 0 = some [])

/-- R54: `MemWrite` sets the n bytes from an offset on and no other byte, and is defined only within the write region. The
region's canonical form (`StepKeepsInvariant`) is a premise. -/
def Obligations.MemWriteRule : Prop :=
  ∀ (s : State) (a n : Nat) (v : List Byte), s.wbMem.wf →
    (a + n ≤ s.wbCap.toNat → v.length = n → ∃ m, memWrite s a n v = some m ∧
      (∀ k < n, m.read (a + k) = byteAt v k) ∧
      (∀ i, i < a ∨ a + n ≤ i → m.read i = s.wbMem.read i) ∧ m.wf ∧ (n = 0 → m = s.wbMem)) ∧
    (s.wbCap.toNat < a + n → memWrite s a n v = none)

/-- R34, R25: the read region's bytes are seen only through RB.READ: with any other bytes in it, a step that is not a legal
RB.READ's goes the same way, gives the host the same, and leaves the same registers and the same write region. -/
def Obligations.ReadRegionIsHidden : Prop :=
  ∀ (s : State) (m : Memory), (∀ c rest n, s.pending = .issue c :: rest → decodeWord c.word ≠ .ok (.rbRead n)) →
    (∀ t, step s = .next t → ∃ t', step { s with rbMem := m } = .next t' ∧ t'.replies = t.replies ∧
      t'.rbLen = t.rbLen ∧ t'.rbCur = t.rbCur ∧ t'.wbMem = t.wbMem ∧ t'.wbCap = t.wbCap ∧ t'.wbCur = t.wbCur ∧
      t'.pending = t.pending) ∧
    (∀ r, step s = .refused r → step { s with rbMem := m } = .refused r)

/-- R57: a read or a write succeeds exactly when the sum over the naturals is within the region; a sum above 65535 never does. -/
def Obligations.BoundsAreExact : Prop :=
  ∀ (n : Len) (s : State),
    (s.port.payload = [] →
      ((∃ t, exec (.rbRead n) s = .next t ∧ lastStatus t = some .ok) ↔ s.rbCur.toNat + n.toNat ≤ s.rbLen.toNat) ∧
      (65535 < s.rbCur.toNat + n.toNat →
        exec (.rbRead n) s = .next (s.reply (.response { status := .outOfBounds })))) ∧
    (s.port.payload.length = n.toNat →
      ((∃ t, exec (.wbWrite n) s = .next t ∧ lastStatus t = some .ok) ↔ s.wbCur.toNat + n.toNat ≤ s.wbCap.toNat) ∧
      (65535 < s.wbCur.toNat + n.toNat →
        exec (.wbWrite n) s = .next (s.reply (.response { status := .outOfBounds }))))

/-- R137: the commands of one channel neither read nor write the other, and the codec commands touch neither: run on two
states that agree on the command and on the channel they use, they answer alike, leave that channel alike, and leave the other
one as it was. -/
def Obligations.ChannelsAreIndependent : Prop :=
  ∀ (i : Instr) (s s' : State), s.port = s'.port →
    ((∃ n, i = .rbBind n ∨ i = .rbRead n) → s.rbMem = s'.rbMem → s.rbLen = s'.rbLen → s.rbCur = s'.rbCur →
      ∃ t t' r, exec i s = .next t ∧ exec i s' = .next t' ∧
        t.replies = .response r :: s.replies ∧ t'.replies = .response r :: s'.replies ∧
        t.rbMem = t'.rbMem ∧ t.rbLen = t'.rbLen ∧ t.rbCur = t'.rbCur ∧
        t.wbMem = s.wbMem ∧ t.wbCap = s.wbCap ∧ t.wbCur = s.wbCur) ∧
    ((∃ n, i = .wbInit n ∨ i = .wbWrite n) → s.wbMem = s'.wbMem → s.wbCap = s'.wbCap → s.wbCur = s'.wbCur →
      ∃ t t' r, exec i s = .next t ∧ exec i s' = .next t' ∧
        t.replies = .response r :: s.replies ∧ t'.replies = .response r :: s'.replies ∧
        t.wbMem = t'.wbMem ∧ t.wbCap = t'.wbCap ∧ t.wbCur = t'.wbCur ∧
        t.rbMem = s.rbMem ∧ t.rbLen = s.rbLen ∧ t.rbCur = s.rbCur) ∧
    ((i = .pack ∨ ∃ n, i = .unpack n) → ∃ t, exec i s = .next t ∧ s.sameBlock t)

/-- R138: no command but RB.BIND moves RB_CUR backwards and no command but WB.INIT moves WB_CUR backwards; those two, when they
succeed, set it to 0 and replace the region. -/
def Obligations.CursorsNeverRewind : Prop :=
  ∀ (s t : State) (c : Command) (rest : List HostAction), s.pending = .issue c :: rest → step s = .next t →
    ((∀ n, decodeWord c.word ≠ .ok (.rbBind n)) → s.rbCur ≤ t.rbCur) ∧
    ((∀ n, decodeWord c.word ≠ .ok (.wbInit n)) → s.wbCur ≤ t.wbCur) ∧
    (∀ n, decodeWord c.word = .ok (.rbBind n) → lastStatus t = some .ok →
      t.rbCur = 0 ∧ readRegionBytes t = c.payload) ∧
    (∀ n, decodeWord c.word = .ok (.wbInit n) → lastStatus t = some .ok →
      t.wbCur = 0 ∧ writeRegionBytes t = List.replicate n.toNat 0)

/-- R161: a command that ends in an error answers that status alone and writes nothing. -/
def Obligations.ErrorsWriteNothing : Prop :=
  ∀ (s t : State) (c : Command) (rest : List HostAction) (e : Status), s.pending = .issue c :: rest →
    step s = .next t → lastStatus t = some e → e ≠ .ok →
    t = (s.issued c rest).reply (.response { status := e }) ∧ s.sameBlock t

/-- R162: after an error the next command does exactly what it would have done without the failed one. -/
def Obligations.ErrorsAreRecoverable : Prop :=
  ∀ (s t : State) (c d : Command) (rest : List HostAction), s.pending = .issue c :: .issue d :: rest →
    step s = .next t → lastStatus t ≠ some .ok →
    ∃ u v, step t = .next u ∧ step (s.setPending (.issue d :: rest)) = .next v ∧
      v.sameBlock u ∧ lastResponse u = lastResponse v

/-- R33: every command gets exactly one response; `data` is present exactly for an OK of PACK (12 bytes) and RB.READ (n bytes),
`hdr` and `count` = 12 exactly for an OK of UNPACK. -/
def Obligations.OneResponsePerCommand : Prop :=
  ∀ (s : State) (c : Command) (rest : List HostAction), s.pending = .issue c :: rest →
    ∃ t r, step s = .next t ∧ t.pending = rest ∧ t.replies = .response r :: s.replies ∧
      (r.data.isSome ↔ r.status = .ok ∧
        (decodeWord c.word = .ok .pack ∨ ∃ n, decodeWord c.word = .ok (.rbRead n))) ∧
      (decodeWord c.word = .ok .pack → ∀ d, r.data = some d → d.length = 12) ∧
      (∀ n, decodeWord c.word = .ok (.rbRead n) → ∀ d, r.data = some d → d.length = n.toNat) ∧
      (r.hdr.isSome ↔ r.status = .ok ∧ ∃ n, decodeWord c.word = .ok (.unpack n)) ∧
      r.count = (if r.hdr.isSome then some 12 else none)

/-- R160: the codes of the four statuses, and which command ends with which error on which condition; an error's response
carries nothing else. -/
def Obligations.StatusesByCommand : Prop :=
  (statusCode .ok = 0 ∧ statusCode .truncatedInput = 1 ∧ statusCode .outOfBounds = 2 ∧ statusCode .illegalCommand = 3) ∧
  ∀ (s : State) (c : Command) (rest : List HostAction), s.pending = .issue c :: rest →
    ∃ t r, step s = .next t ∧ lastResponse t = some r ∧
      (r.status = .truncatedInput ↔ c.legal ∧ ∃ n, decodeWord c.word = .ok (.unpack n) ∧ n.toNat < 12) ∧
      (r.status = .outOfBounds ↔ c.legal ∧
        ((∃ n, decodeWord c.word = .ok (.rbRead n) ∧ s.rbLen.toNat < s.rbCur.toNat + n.toNat) ∨
          ∃ n, decodeWord c.word = .ok (.wbWrite n) ∧ s.wbCap.toNat < s.wbCur.toNat + n.toNat)) ∧
      (r.status = .illegalCommand ↔ ¬ c.legal) ∧
      (r.status ≠ .ok → r.data = none ∧ r.hdr = none ∧ r.count = none)

/-- R185, 93_implementation_defined.md: no step faults, every instruction completes, and the only refusals are the two
host-duty violations. -/
def Obligations.NeverFaults : Prop :=
  (∀ (i : Instr) (s : State), ∃ t, exec i s = .next t) ∧
  (∀ (s : State) (f : Fault), step s ≠ .fault f) ∧
  ∀ (s : State) (r : Refusal), step s = .refused r →
    (r = .registerIndex ∧ ∃ index rest, s.pending = .readRegister index :: rest ∧ 3 < index) ∨
    (r = .regionIndex ∧ ∃ i rest, s.pending = .readRegion i :: rest ∧ s.wbCap.toNat ≤ i)

/-- R24, R25, R26, R180: which interactions can change which piece of state. -/
def Obligations.OnlyNamedCommandsWrite : Prop :=
  ∀ (s t : State), step s = .next t →
    ((t.rbMem ≠ s.rbMem ∨ t.rbLen ≠ s.rbLen) →
      (∃ c rest n, s.pending = .issue c :: rest ∧ decodeWord c.word = .ok (.rbBind n)) ∨ ∃ rest, s.pending = .reset :: rest) ∧
    (t.rbCur ≠ s.rbCur →
      (∃ c rest n, s.pending = .issue c :: rest ∧
        (decodeWord c.word = .ok (.rbBind n) ∨ decodeWord c.word = .ok (.rbRead n))) ∨ ∃ rest, s.pending = .reset :: rest) ∧
    (t.wbCap ≠ s.wbCap →
      (∃ c rest n, s.pending = .issue c :: rest ∧ decodeWord c.word = .ok (.wbInit n)) ∨ ∃ rest, s.pending = .reset :: rest) ∧
    ((t.wbMem ≠ s.wbMem ∨ t.wbCur ≠ s.wbCur) →
      (∃ c rest n, s.pending = .issue c :: rest ∧
        (decodeWord c.word = .ok (.wbInit n) ∨ decodeWord c.word = .ok (.wbWrite n))) ∨ ∃ rest, s.pending = .reset :: rest)

/-- R31, R23: no command but PACK has any use for H_in, and none for earlier responses or for what the host does later: with
those replaced it does the same. -/
def Obligations.NothingElseIsSampled : Prop :=
  ∀ (i : Instr) (s : State) (h : HIn) (q : List HostAction) (x : List HostReply), (i = .pack → h = s.port.hIn) →
    ∃ t r, exec i s = .next t ∧ t.replies = .response r :: s.replies ∧
      exec i { s with port := { s.port with hIn := h }, pending := q, replies := x } =
        .next { t with port := { s.port with hIn := h }, pending := q, replies := .response r :: x }

/-- R60: what the host got back is never changed: a step adds at most one reply. -/
def Obligations.RepliesStand : Prop :=
  ∀ (s t : State), step s = .next t → t.replies = s.replies ∨ ∃ r, t.replies = r :: s.replies

/-- R59: repeating RB.BIND or WB.INIT gives the same block; a successful RB.READ of at least one byte does not. -/
def Obligations.RepeatedCommands : Prop :=
  ∀ (s t u : State) (c : Command) (rest : List HostAction) (n : Len), s.pending = .issue c :: .issue c :: rest →
    step s = .next t → step t = .next u →
    ((decodeWord c.word = .ok (.rbBind n) ∨ decodeWord c.word = .ok (.wbInit n)) → t.sameBlock u) ∧
    (decodeWord c.word = .ok (.rbRead n) → lastStatus u = some .ok → n ≠ 0 → ¬ t.sameBlock u)

/-- R63: two commands take effect in the order issued, the second on the state the first left. -/
def Obligations.CommandsInOrder : Prop :=
  ∀ (s : State) (c d : Command) (rest : List HostAction), s.pending = .issue c :: .issue d :: rest →
    ∃ t u v, step s = .next t ∧ step t = .next u ∧ issueAll [c, d] s = .next v ∧
      u.pending = rest ∧ v.sameBlock u ∧ u.replies = v.replies

/-- R183: the order of the RB.BIND and the WB.INIT that prepare the channels does not matter. -/
def Obligations.PreparationOrderIrrelevant : Prop :=
  ∀ (s : State) (p : List Byte) (m n : Len), p.length = m.toNat →
    ∃ t u,
      issueAll [encodeCommand (.rbBind m) {} p, encodeCommand (.wbInit n) {} []] s = .next t ∧
      issueAll [encodeCommand (.wbInit n) {} [], encodeCommand (.rbBind m) {} p] s = .next u ∧
      t.sameBlock u ∧ readRegionBytes t = p ∧ t.wbCap = n

/-! ### Host interface and reset -/

/-- R41: the four register indices and the bytes of the write region, read with no side effect on the block. -/
def Obligations.HostReads : Prop :=
  ∀ (s : State) (rest : List HostAction),
    (s.pending = .readRegister 0 :: rest → step s = .next ((s.setPending rest).reply (.register s.rbLen))) ∧
    (s.pending = .readRegister 1 :: rest → step s = .next ((s.setPending rest).reply (.register s.rbCur))) ∧
    (s.pending = .readRegister 2 :: rest → step s = .next ((s.setPending rest).reply (.register s.wbCap))) ∧
    (s.pending = .readRegister 3 :: rest → step s = .next ((s.setPending rest).reply (.register s.wbCur))) ∧
    (∀ i, s.pending = .readRegion i :: rest → i < s.wbCap.toNat →
      step s = .next ((s.setPending rest).reply (.regionByte (s.wbMem.read i))))

/-- R40, 93_implementation_defined.md row 12: a register index above 3 and a write-region index at or above WB_CAP are refused. -/
def Obligations.HostDutiesRefused : Prop :=
  ∀ (s : State) (rest : List HostAction) (i : Nat),
    (s.pending = .readRegister i :: rest → 3 < i → step s = .refused .registerIndex) ∧
    (s.pending = .readRegion i :: rest → s.wbCap.toNat ≤ i → step s = .refused .regionIndex)

/-- R185, R173: with nothing to do for the host the block is idle and its state is held (the model's reading: log entry 7). -/
def Obligations.IdleHoldsState : Prop := ∀ s : State, s.pending = [] → step s = .next s

/-- R180: the state after reset, at the start and whenever the host asserts reset. -/
def Obligations.ResetState : Prop :=
  (State.reset.rbMem = [] ∧ State.reset.rbLen = 0 ∧ State.reset.rbCur = 0 ∧
    State.reset.wbMem = [] ∧ State.reset.wbCap = 0 ∧ State.reset.wbCur = 0) ∧
  ∀ (s : State) (rest : List HostAction), s.pending = .reset :: rest →
    ∃ t, step s = .next t ∧ State.reset.sameBlock t ∧ t.Inv

/-- R181: what the commands do straight after reset, before any bind or init. -/
def Obligations.BehaviourAfterReset : Prop :=
  ∀ (s : State) (n : Len) (h : HIn) (p : List Byte), State.reset.sameBlock s →
    (∃ t, issueCommand (encodeCommand (.rbRead 0) h []) s = .next t ∧
      lastResponse t = some { status := .ok, data := some [] }) ∧
    (1 ≤ n.toNat → ∃ t, issueCommand (encodeCommand (.rbRead n) h []) s = .next t ∧
      lastResponse t = some { status := .outOfBounds }) ∧
    (∃ t, issueCommand (encodeCommand (.wbWrite 0) h []) s = .next t ∧ lastResponse t = some { status := .ok }) ∧
    (1 ≤ n.toNat → p.length = n.toNat → ∃ t, issueCommand (encodeCommand (.wbWrite n) h p) s = .next t ∧
      lastResponse t = some { status := .outOfBounds }) ∧
    ∀ (i : Instr), (i = .pack ∨ i = .unpack n) → ∀ s' : State, ∃ t t',
      issueCommand (encodeCommand i h p) s = .next t ∧ issueCommand (encodeCommand i h p) s' = .next t' ∧
      lastResponse t = lastResponse t'

/-- R27, R28, R29, R43: every step keeps the well-formedness conditions of a state (the model's canonical form of the two
regions, log entry 4, among them). -/
def Obligations.StepKeepsInvariant : Prop := ∀ s t : State, s.Inv → step s = .next t → t.Inv

/-- R27, R28, R29 and the lengths of R43: whatever the host does from reset on, every state reached meets the well-formedness
conditions. The canonical form of the regions, which Inv holds too, is the model's own (log entry 4). -/
def Obligations.EveryReachableStateIsWellFormed : Prop :=
  ∀ (q : List HostAction) (k : Nat) (t : State), Sys2Proof.core.run k (State.reset.setPending q) = .next t → t.Inv

/-- R180: the state after reset meets the invariants. -/
def Obligations.ResetMeetsInvariant : Prop := State.reset.Inv

/-! ### Sequences of commands -/

/-- R79: the three pseudo-instructions: PACK.WB stores the packed header and answers OK, or answers OUT_OF_BOUNDS when fewer
than 12 bytes of capacity remain; RB.UNPACK answers the header in the next 12 bytes, or OUT_OF_BOUNDS with the cursor
unchanged; RB.SKIP moves the cursor as RB.READ does. -/
def Obligations.PseudoInstructions : Prop :=
  ∀ (s : State) (h : HIn) (n : Len),
    (s.wbCur.toNat + 12 ≤ s.wbCap.toNat → ∃ t, packWb h s = .next t ∧ lastStatus t = some .ok ∧
      t.wbMem = s.wbMem.writeBytes s.wbCur.toNat (packHeader h) ∧ t.wbCur.toNat = s.wbCur.toNat + 12) ∧
    (s.wbCap.toNat < s.wbCur.toNat + 12 → ∃ t, packWb h s = .next t ∧ lastStatus t = some .outOfBounds ∧ s.sameBlock t) ∧
    (s.rbCur.toNat + 12 ≤ s.rbLen.toNat → ∃ t, rbUnpack s = .next t ∧
      lastResponse t = some
        { status := .ok, hdr := some (unpackHeader (s.rbMem.readBytes s.rbCur.toNat 12)), count := some 12 } ∧
      t.rbCur.toNat = s.rbCur.toNat + 12) ∧
    (s.rbLen.toNat < s.rbCur.toNat + 12 → ∃ t, rbUnpack s = .next t ∧ lastStatus t = some .outOfBounds ∧ t.rbCur = s.rbCur) ∧
    (s.rbCur.toNat + n.toNat ≤ s.rbLen.toNat → ∃ t, rbSkip n s = .next t ∧ lastStatus t = some .ok ∧
      t.rbCur.toNat = s.rbCur.toNat + n.toNat) ∧
    (s.rbLen.toNat < s.rbCur.toNat + n.toNat → ∃ t, rbSkip n s = .next t ∧ lastStatus t = some .outOfBounds ∧ s.sameBlock t)

/-- 95_test_vectors.md P5, for every header: a header packed into the write channel, handed to the read channel and unpacked
there comes back as the operand with its two 4-bit fields masked, from any state. -/
def Obligations.HeaderLoopback : Prop :=
  ∀ (s : State) (h : HIn),
    ∃ a b c t,
      issueCommand (encodeCommand (.wbInit 12) {} []) s = .next a ∧
      packWb h a = .next b ∧
      issueCommand (encodeCommand (.rbBind 12) {} (outgoingMessage b)) b = .next c ∧
      rbUnpack c = .next t ∧
      lastResponse t = some { status := .ok, hdr := some (headerOf h), count := some 12 } ∧
      t.rbCur = 12 ∧ t.wbCur = 12
end

