-- ==== Sys2Proof/Laws/Codec.lean ====
section
/-! SUPPORT. The small lemmas of the codec's field helpers: splitting and joining 16-bit fields, and the two flag bytes. -/

namespace Sys2Proof.Machine

theorem join16_highByte_lowByte (v : Len) : join16 (highByte v) (lowByte v) = v := by
  apply BitVec.eq_of_getLsbD_eq
  intro i hi
  simp only [join16, highByte, lowByte, BitVec.getLsbD_or, BitVec.getLsbD_shiftLeft, BitVec.getLsbD_setWidth,
    BitVec.getLsbD_extractLsb']
  by_cases h : i < 8
  · simp [h, hi]
  · simp [h, hi, show i - 8 < 8 by omega, show 8 + (i - 8) = i by omega, show i - 8 < 16 by omega]

theorem highByte_join16 (a b : Byte) : highByte (join16 a b) = a := by
  apply BitVec.eq_of_getLsbD_eq
  intro i hi
  simp [join16, highByte, hi, show 8 + i < 16 by omega]

theorem lowByte_join16 (a b : Byte) : lowByte (join16 a b) = b := by
  apply BitVec.eq_of_getLsbD_eq
  intro i hi
  simp [join16, lowByte, hi, show i < 16 by omega]

theorem flagByte2_fields : ∀ (qr : Flag) (op : Nibble) (aa tc rd : Flag),
    bitAt (flagByte2 qr op aa tc rd) 7 = qr ∧ opcodeBits (flagByte2 qr op aa tc rd) = op ∧
      bitAt (flagByte2 qr op aa tc rd) 2 = aa ∧ bitAt (flagByte2 qr op aa tc rd) 1 = tc ∧
      bitAt (flagByte2 qr op aa tc rd) 0 = rd := by decide

theorem flagByte3_fields : ∀ (ra : Flag) (rc : Nibble),
    bitAt (flagByte3 ra rc) 7 = ra ∧ rcodeBits (flagByte3 ra rc) = rc := by decide

theorem flagByte2_of_fields : ∀ b : Byte,
    flagByte2 (bitAt b 7) (opcodeBits b) (bitAt b 2) (bitAt b 1) (bitAt b 0) = b := by decide

theorem flagByte3_of_fields : ∀ b : Byte, flagByte3 (bitAt b 7) (rcodeBits b) = b &&& 0x8F := by decide

theorem low4_setWidth : ∀ n : Nibble, low4 (n.setWidth 8) = n := by decide

theorem length_packHeader (h : HIn) : (packHeader h).length = 12 := rfl

theorem byteAt_of_lt {b : List Byte} {k : Nat} (h : k < b.length) : byteAt b k = b[k] := by
  simp [byteAt, h]

theorem byteAt_take (b : List Byte) {k n : Nat} (h : k < n) : byteAt (b.take n) k = byteAt b k := by
  simp [byteAt, List.getD, h]

end Sys2Proof.Machine
end

