-- ==== Sys2Proof/Laws/Memory.lean ====
section
/-! SUPPORT. The laws of a region's bytes: read after write, sequences of bytes, and that every memory operation keeps the
canonical form and the region's length. -/

namespace Sys2Proof.Machine

/-! ### Reading -/

@[simp] theorem Memory.read_nil (a : Nat) : Memory.read [] a = 0 := rfl

theorem Memory.read_eq_zero {m : Memory} {a : Nat} (h : ∀ c ∈ m, c.1 ≠ a) : m.read a = 0 := by
  induction m with
  | nil => rfl
  | cons c m ih =>
    have hc : c.1 ≠ a := h c (by simp)
    simp only [Memory.read, if_neg hc]
    exact ih fun d hd => h d (List.mem_cons_of_mem _ hd)

theorem Memory.read_cons_ne {a b : Nat} (v : Byte) (m : Memory) (h : a ≠ b) :
    (Memory.cons a v m).read b = m.read b := by
  unfold Memory.cons
  split
  · rfl
  · simp [Memory.read, h]

theorem Memory.read_cons_same {a : Nat} (v : Byte) {m : Memory} (h : ∀ c ∈ m, a < c.1) :
    (Memory.cons a v m).read a = v := by
  unfold Memory.cons
  split
  · rename_i hv
    rw [hv]
    exact Memory.read_eq_zero fun c hc => Nat.ne_of_gt (h c hc)
  · simp [Memory.read]

theorem Memory.mem_cons {a : Nat} {v : Byte} {m : Memory} {c : Host.Cell} (h : c ∈ Memory.cons a v m) :
    (c = (a, v) ∧ v ≠ 0) ∨ c ∈ m := by
  unfold Memory.cons at h
  split at h
  · exact .inr h
  · rcases List.mem_cons.1 h with rfl | h
    · exact .inl ⟨rfl, ‹_›⟩
    · exact .inr h

theorem Memory.wf_nil : Memory.wf [] := by decide

theorem Memory.wf_tail {c : Host.Cell} {m : Memory} (h : Memory.wf (c :: m)) : Memory.wf m :=
  ⟨(List.pairwise_cons.1 h.1).2, fun d hd => h.2 d (List.mem_cons_of_mem _ hd)⟩

theorem Memory.wf_head_lt {c : Host.Cell} {m : Memory} (h : Memory.wf (c :: m)) : ∀ d ∈ m, c.1 < d.1 :=
  (List.pairwise_cons.1 h.1).1

theorem Memory.cons_wf {a : Nat} (v : Byte) {m : Memory} (hm : m.wf) (h : ∀ c ∈ m, a < c.1) :
    (Memory.cons a v m).wf := by
  unfold Memory.cons
  split
  · exact hm
  · rename_i hv
    refine ⟨List.pairwise_cons.2 ⟨h, hm.1⟩, fun c hc => ?_⟩
    rcases List.mem_cons.1 hc with rfl | hc
    · exact hv
    · exact hm.2 c hc

/-! ### Writing one byte -/

theorem Memory.read_write_ne (m : Memory) {a b : Nat} (v : Byte) (h : a ≠ b) : (m.write a v).read b = m.read b := by
  induction m with
  | nil => exact Memory.read_cons_ne v [] h
  | cons c m ih =>
    obtain ⟨k, x⟩ := c
    simp only [Memory.write]
    split
    · exact Memory.read_cons_ne v _ h
    · split
      · rename_i hk
        rw [Memory.read_cons_ne v _ h]
        simp [Memory.read, ← hk, h]
      · simp only [Memory.read, ih]

theorem Memory.read_write_same {m : Memory} (hm : m.wf) (a : Nat) (v : Byte) : (m.write a v).read a = v := by
  induction m with
  | nil => exact Memory.read_cons_same v (by simp)
  | cons c m ih =>
    obtain ⟨k, x⟩ := c
    have hlt := Memory.wf_head_lt hm
    simp only [Memory.write]
    split
    · rename_i hk
      refine Memory.read_cons_same v fun d hd => ?_
      rcases List.mem_cons.1 hd with rfl | hd
      · exact hk
      · exact Nat.lt_trans hk (hlt d hd)
    · split
      · rename_i hk
        subst hk
        exact Memory.read_cons_same v hlt
      · rename_i hk
        simp only [Memory.read, if_neg (Ne.symm hk)]
        exact ih (Memory.wf_tail hm)

theorem Memory.mem_write {m : Memory} {a : Nat} {v : Byte} {c : Host.Cell} (h : c ∈ m.write a v) :
    (c = (a, v) ∧ v ≠ 0) ∨ c ∈ m := by
  induction m with
  | nil => exact Memory.mem_cons h
  | cons d m ih =>
    obtain ⟨k, x⟩ := d
    simp only [Memory.write] at h
    split at h
    · exact Memory.mem_cons h
    · split at h
      · exact (Memory.mem_cons h).imp_right (List.mem_cons_of_mem _)
      · rcases List.mem_cons.1 h with rfl | h
        · exact .inr (by simp)
        · exact (ih h).imp_right (List.mem_cons_of_mem _)

theorem Memory.write_wf {m : Memory} (hm : m.wf) (a : Nat) (v : Byte) : (m.write a v).wf := by
  induction m with
  | nil => exact Memory.cons_wf v hm (by simp)
  | cons c m ih =>
    obtain ⟨k, x⟩ := c
    have hlt := Memory.wf_head_lt hm
    have htl := Memory.wf_tail hm
    simp only [Memory.write]
    split
    · rename_i hk
      refine Memory.cons_wf v hm fun d hd => ?_
      rcases List.mem_cons.1 hd with rfl | hd
      · exact hk
      · exact Nat.lt_trans hk (hlt d hd)
    · split
      · rename_i hk
        exact Memory.cons_wf v htl fun d hd => hk ▸ hlt d hd
      · have hr := ih htl
        refine ⟨List.pairwise_cons.2 ⟨fun d hd => ?_, hr.1⟩, fun d hd => ?_⟩
        · rcases Memory.mem_write hd with ⟨rfl, -⟩ | hd
          · exact Nat.lt_of_le_of_ne (Nat.not_lt.1 ‹¬ a < k›) (Ne.symm ‹¬ a = k›)
          · exact hlt d hd
        · rcases List.mem_cons.1 hd with rfl | hd
          · exact hm.2 _ (by simp)
          · exact hr.2 d hd

/-! ### Byte sequences -/

@[simp] theorem Memory.length_readBytes (m : Memory) (a n : Nat) : (m.readBytes a n).length = n := by
  induction n generalizing a with
  | zero => rfl
  | succ n ih => simp [Memory.readBytes, ih]

theorem Memory.getElem_readBytes (m : Memory) (a n k : Nat) (h : k < (m.readBytes a n).length) :
    (m.readBytes a n)[k] = m.read (a + k) := by
  induction n generalizing a k with
  | zero => simp at h
  | succ n ih =>
    cases k with
    | zero => rfl
    | succ k =>
      simp only [Memory.readBytes, List.getElem_cons_succ]
      rw [ih (a + 1) k (by simpa [Memory.readBytes] using h), Nat.add_right_comm, Nat.add_assoc]

theorem Memory.readBytes_append (m : Memory) (a n k : Nat) :
    m.readBytes a (n + k) = m.readBytes a n ++ m.readBytes (a + n) k := by
  induction n generalizing a with
  | zero => simp [Memory.readBytes]
  | succ n ih =>
    rw [Nat.add_right_comm]
    simp only [Memory.readBytes, List.cons_append, ih]
    rw [Nat.add_right_comm, Nat.add_assoc]

theorem Memory.readBytes_empty (a n : Nat) : Memory.readBytes [] a n = List.replicate n 0 := by
  induction n generalizing a with
  | zero => rfl
  | succ n ih => simp [Memory.readBytes, ih, List.replicate_succ]

theorem Memory.readBytes_congr {m m' : Memory} {a n : Nat} (h : ∀ i, a ≤ i → i < a + n → m.read i = m'.read i) :
    m.readBytes a n = m'.readBytes a n := by
  induction n generalizing a with
  | zero => rfl
  | succ n ih =>
    simp only [Memory.readBytes]
    rw [h a (Nat.le_refl _) (by omega), ih fun i h1 h2 => h i (by omega) (by omega)]

theorem Memory.writeBytes_append (m : Memory) (a : Nat) (p q : List Byte) :
    m.writeBytes a (p ++ q) = (m.writeBytes a p).writeBytes (a + p.length) q := by
  induction p generalizing m a with
  | nil => rfl
  | cons v p ih =>
    simp only [List.cons_append, Memory.writeBytes, ih, List.length_cons]
    rw [Nat.add_right_comm, Nat.add_assoc]

theorem Memory.writeBytes_wf {m : Memory} (hm : m.wf) (a : Nat) (vs : List Byte) : (m.writeBytes a vs).wf := by
  induction vs generalizing m a with
  | nil => exact hm
  | cons v vs ih => exact ih (Memory.write_wf hm a v) (a + 1)

theorem Memory.read_writeBytes_outside (m : Memory) (a : Nat) (vs : List Byte) (i : Nat)
    (h : i < a ∨ a + vs.length ≤ i) : (m.writeBytes a vs).read i = m.read i := by
  induction vs generalizing m a with
  | nil => rfl
  | cons v vs ih =>
    simp only [List.length_cons] at h
    simp only [Memory.writeBytes]
    rw [ih (m.write a v) (a + 1) (by omega), Memory.read_write_ne m v (by omega)]

theorem Memory.read_writeBytes_inside {m : Memory} (hm : m.wf) (a : Nat) (vs : List Byte) (k : Nat) (h : k < vs.length) :
    (m.writeBytes a vs).read (a + k) = vs[k] := by
  induction vs generalizing m a k with
  | nil => simp at h
  | cons v vs ih =>
    simp only [Memory.writeBytes]
    cases k with
    | zero =>
      rw [Memory.read_writeBytes_outside _ _ _ _ (by omega)]
      exact Memory.read_write_same hm a v
    | succ k =>
      have := ih (Memory.write_wf hm a v) (a + 1) k (by simpa using h)
      rwa [Nat.add_right_comm, Nat.add_assoc] at this

theorem Memory.within_writeBytes {m : Memory} {n a : Nat} {vs : List Byte} (hm : m.within n) (h : a + vs.length ≤ n) :
    (m.writeBytes a vs).within n := by
  induction vs generalizing m a with
  | nil => exact hm
  | cons v vs ih =>
    simp only [List.length_cons] at h
    refine ih (fun c hc => ?_) (by omega)
    rcases Memory.mem_write hc with ⟨rfl, -⟩ | hc
    · change a < n
      omega
    · exact hm c hc

/-! ### A region made of bytes -/

theorem Memory.mem_ofBytes {a : Nat} {vs : List Byte} {c : Host.Cell} (h : c ∈ Memory.ofBytes a vs) :
    a ≤ c.1 ∧ c.1 < a + vs.length := by
  induction vs generalizing a with
  | nil => simp [Memory.ofBytes] at h
  | cons v vs ih =>
    simp only [List.length_cons]
    rcases Memory.mem_cons h with ⟨rfl, -⟩ | h
    · exact ⟨Nat.le_refl _, by change a < _; omega⟩
    · have := ih h
      omega

theorem Memory.ofBytes_wf (a : Nat) (vs : List Byte) : (Memory.ofBytes a vs).wf := by
  induction vs generalizing a with
  | nil => exact Memory.wf_nil
  | cons v vs ih => exact Memory.cons_wf v (ih (a + 1)) fun c hc => (Memory.mem_ofBytes hc).1

theorem Memory.within_ofBytes (vs : List Byte) : (Memory.ofBytes 0 vs).within vs.length := fun c hc => by
  have := Memory.mem_ofBytes hc
  omega

theorem Memory.read_ofBytes (a : Nat) (vs : List Byte) (k : Nat) (h : k < vs.length) :
    (Memory.ofBytes a vs).read (a + k) = vs[k] := by
  induction vs generalizing a k with
  | nil => simp at h
  | cons v vs ih =>
    cases k with
    | zero => exact Memory.read_cons_same v fun c hc => (Memory.mem_ofBytes hc).1
    | succ k =>
      simp only [Memory.ofBytes, List.getElem_cons_succ]
      rw [Memory.read_cons_ne v _ (by omega)]
      have := ih (a + 1) k (by simpa using h)
      rwa [Nat.add_right_comm, Nat.add_assoc] at this

theorem Memory.readBytes_ofBytes (vs : List Byte) : (Memory.ofBytes 0 vs).readBytes 0 vs.length = vs :=
  List.ext_getElem (by simp) fun k h1 h2 => by
    rw [Memory.getElem_readBytes, Memory.read_ofBytes 0 vs k h2]

theorem Memory.readBytes_writeBytes {m : Memory} (hm : m.wf) (a : Nat) (vs : List Byte) :
    (m.writeBytes a vs).readBytes a vs.length = vs :=
  List.ext_getElem (by simp) fun k h1 h2 => by
    rw [Memory.getElem_readBytes, Memory.read_writeBytes_inside hm a vs k h2]

theorem Memory.read_eq_zero_of_within {m : Memory} {n i : Nat} (hm : m.within n) (h : n ≤ i) : m.read i = 0 :=
  Memory.read_eq_zero fun c hc => by
    have := hm c hc
    omega

end Sys2Proof.Machine
end

