-- ==== Sys2Proof/Laws/State.lean ====
section
/-! SUPPORT. What every update of the state does to every field, by rfl. -/

namespace Sys2Proof.Machine

variable (s : State)

@[simp] theorem State.reply_rbMem (r : HostReply) : (State.reply r s).rbMem = s.rbMem := rfl
@[simp] theorem State.reply_rbLen (r : HostReply) : (State.reply r s).rbLen = s.rbLen := rfl
@[simp] theorem State.reply_rbCur (r : HostReply) : (State.reply r s).rbCur = s.rbCur := rfl
@[simp] theorem State.reply_wbMem (r : HostReply) : (State.reply r s).wbMem = s.wbMem := rfl
@[simp] theorem State.reply_wbCap (r : HostReply) : (State.reply r s).wbCap = s.wbCap := rfl
@[simp] theorem State.reply_wbCur (r : HostReply) : (State.reply r s).wbCur = s.wbCur := rfl
@[simp] theorem State.reply_pending (r : HostReply) : (State.reply r s).pending = s.pending := rfl
@[simp] theorem State.reply_port (r : HostReply) : (State.reply r s).port = s.port := rfl
@[simp] theorem State.reply_replies (r : HostReply) : (State.reply r s).replies = r :: s.replies := rfl

@[simp] theorem State.setPort_rbMem (c : Command) : (State.setPort c s).rbMem = s.rbMem := rfl
@[simp] theorem State.setPort_rbLen (c : Command) : (State.setPort c s).rbLen = s.rbLen := rfl
@[simp] theorem State.setPort_rbCur (c : Command) : (State.setPort c s).rbCur = s.rbCur := rfl
@[simp] theorem State.setPort_wbMem (c : Command) : (State.setPort c s).wbMem = s.wbMem := rfl
@[simp] theorem State.setPort_wbCap (c : Command) : (State.setPort c s).wbCap = s.wbCap := rfl
@[simp] theorem State.setPort_wbCur (c : Command) : (State.setPort c s).wbCur = s.wbCur := rfl
@[simp] theorem State.setPort_pending (c : Command) : (State.setPort c s).pending = s.pending := rfl
@[simp] theorem State.setPort_port (c : Command) : (State.setPort c s).port = c := rfl
@[simp] theorem State.setPort_replies (c : Command) : (State.setPort c s).replies = s.replies := rfl

@[simp] theorem State.setPending_rbMem (q : List HostAction) : (State.setPending q s).rbMem = s.rbMem := rfl
@[simp] theorem State.setPending_rbLen (q : List HostAction) : (State.setPending q s).rbLen = s.rbLen := rfl
@[simp] theorem State.setPending_rbCur (q : List HostAction) : (State.setPending q s).rbCur = s.rbCur := rfl
@[simp] theorem State.setPending_wbMem (q : List HostAction) : (State.setPending q s).wbMem = s.wbMem := rfl
@[simp] theorem State.setPending_wbCap (q : List HostAction) : (State.setPending q s).wbCap = s.wbCap := rfl
@[simp] theorem State.setPending_wbCur (q : List HostAction) : (State.setPending q s).wbCur = s.wbCur := rfl
@[simp] theorem State.setPending_pending (q : List HostAction) : (State.setPending q s).pending = q := rfl
@[simp] theorem State.setPending_port (q : List HostAction) : (State.setPending q s).port = s.port := rfl
@[simp] theorem State.setPending_replies (q : List HostAction) : (State.setPending q s).replies = s.replies := rfl

@[simp] theorem State.bindRead_rbMem (m : Memory) (n : Len) : (State.bindRead m n s).rbMem = m := rfl
@[simp] theorem State.bindRead_rbLen (m : Memory) (n : Len) : (State.bindRead m n s).rbLen = n := rfl
@[simp] theorem State.bindRead_rbCur (m : Memory) (n : Len) : (State.bindRead m n s).rbCur = 0 := rfl
@[simp] theorem State.bindRead_wbMem (m : Memory) (n : Len) : (State.bindRead m n s).wbMem = s.wbMem := rfl
@[simp] theorem State.bindRead_wbCap (m : Memory) (n : Len) : (State.bindRead m n s).wbCap = s.wbCap := rfl
@[simp] theorem State.bindRead_wbCur (m : Memory) (n : Len) : (State.bindRead m n s).wbCur = s.wbCur := rfl
@[simp] theorem State.bindRead_pending (m : Memory) (n : Len) : (State.bindRead m n s).pending = s.pending := rfl
@[simp] theorem State.bindRead_port (m : Memory) (n : Len) : (State.bindRead m n s).port = s.port := rfl
@[simp] theorem State.bindRead_replies (m : Memory) (n : Len) : (State.bindRead m n s).replies = s.replies := rfl

@[simp] theorem State.setReadCursor_rbMem (c : Len) : (State.setReadCursor c s).rbMem = s.rbMem := rfl
@[simp] theorem State.setReadCursor_rbLen (c : Len) : (State.setReadCursor c s).rbLen = s.rbLen := rfl
@[simp] theorem State.setReadCursor_rbCur (c : Len) : (State.setReadCursor c s).rbCur = c := rfl
@[simp] theorem State.setReadCursor_wbMem (c : Len) : (State.setReadCursor c s).wbMem = s.wbMem := rfl
@[simp] theorem State.setReadCursor_wbCap (c : Len) : (State.setReadCursor c s).wbCap = s.wbCap := rfl
@[simp] theorem State.setReadCursor_wbCur (c : Len) : (State.setReadCursor c s).wbCur = s.wbCur := rfl
@[simp] theorem State.setReadCursor_pending (c : Len) : (State.setReadCursor c s).pending = s.pending := rfl
@[simp] theorem State.setReadCursor_port (c : Len) : (State.setReadCursor c s).port = s.port := rfl
@[simp] theorem State.setReadCursor_replies (c : Len) : (State.setReadCursor c s).replies = s.replies := rfl

@[simp] theorem State.initWrite_rbMem (n : Len) : (State.initWrite n s).rbMem = s.rbMem := rfl
@[simp] theorem State.initWrite_rbLen (n : Len) : (State.initWrite n s).rbLen = s.rbLen := rfl
@[simp] theorem State.initWrite_rbCur (n : Len) : (State.initWrite n s).rbCur = s.rbCur := rfl
@[simp] theorem State.initWrite_wbMem (n : Len) : (State.initWrite n s).wbMem = [] := rfl
@[simp] theorem State.initWrite_wbCap (n : Len) : (State.initWrite n s).wbCap = n := rfl
@[simp] theorem State.initWrite_wbCur (n : Len) : (State.initWrite n s).wbCur = 0 := rfl
@[simp] theorem State.initWrite_pending (n : Len) : (State.initWrite n s).pending = s.pending := rfl
@[simp] theorem State.initWrite_port (n : Len) : (State.initWrite n s).port = s.port := rfl
@[simp] theorem State.initWrite_replies (n : Len) : (State.initWrite n s).replies = s.replies := rfl

@[simp] theorem State.setWriteMem_rbMem (m : Memory) : (State.setWriteMem m s).rbMem = s.rbMem := rfl
@[simp] theorem State.setWriteMem_rbLen (m : Memory) : (State.setWriteMem m s).rbLen = s.rbLen := rfl
@[simp] theorem State.setWriteMem_rbCur (m : Memory) : (State.setWriteMem m s).rbCur = s.rbCur := rfl
@[simp] theorem State.setWriteMem_wbMem (m : Memory) : (State.setWriteMem m s).wbMem = m := rfl
@[simp] theorem State.setWriteMem_wbCap (m : Memory) : (State.setWriteMem m s).wbCap = s.wbCap := rfl
@[simp] theorem State.setWriteMem_wbCur (m : Memory) : (State.setWriteMem m s).wbCur = s.wbCur := rfl
@[simp] theorem State.setWriteMem_pending (m : Memory) : (State.setWriteMem m s).pending = s.pending := rfl
@[simp] theorem State.setWriteMem_port (m : Memory) : (State.setWriteMem m s).port = s.port := rfl
@[simp] theorem State.setWriteMem_replies (m : Memory) : (State.setWriteMem m s).replies = s.replies := rfl

@[simp] theorem State.setWriteCursor_rbMem (c : Len) : (State.setWriteCursor c s).rbMem = s.rbMem := rfl
@[simp] theorem State.setWriteCursor_rbLen (c : Len) : (State.setWriteCursor c s).rbLen = s.rbLen := rfl
@[simp] theorem State.setWriteCursor_rbCur (c : Len) : (State.setWriteCursor c s).rbCur = s.rbCur := rfl
@[simp] theorem State.setWriteCursor_wbMem (c : Len) : (State.setWriteCursor c s).wbMem = s.wbMem := rfl
@[simp] theorem State.setWriteCursor_wbCap (c : Len) : (State.setWriteCursor c s).wbCap = s.wbCap := rfl
@[simp] theorem State.setWriteCursor_wbCur (c : Len) : (State.setWriteCursor c s).wbCur = c := rfl
@[simp] theorem State.setWriteCursor_pending (c : Len) : (State.setWriteCursor c s).pending = s.pending := rfl
@[simp] theorem State.setWriteCursor_port (c : Len) : (State.setWriteCursor c s).port = s.port := rfl
@[simp] theorem State.setWriteCursor_replies (c : Len) : (State.setWriteCursor c s).replies = s.replies := rfl

@[simp] theorem State.resetBlock_rbMem : (s.resetBlock).rbMem = [] := rfl
@[simp] theorem State.resetBlock_rbLen : (s.resetBlock).rbLen = 0 := rfl
@[simp] theorem State.resetBlock_rbCur : (s.resetBlock).rbCur = 0 := rfl
@[simp] theorem State.resetBlock_wbMem : (s.resetBlock).wbMem = [] := rfl
@[simp] theorem State.resetBlock_wbCap : (s.resetBlock).wbCap = 0 := rfl
@[simp] theorem State.resetBlock_wbCur : (s.resetBlock).wbCur = 0 := rfl
@[simp] theorem State.resetBlock_pending : (s.resetBlock).pending = s.pending := rfl
@[simp] theorem State.resetBlock_port : (s.resetBlock).port = s.port := rfl
@[simp] theorem State.resetBlock_replies : (s.resetBlock).replies = s.replies := rfl

end Sys2Proof.Machine
end

