-- ==== Sys2Proof/Laws/Ops.lean ====
section
/-! SUPPORT. One lemma per shared operation: what it can do. -/

namespace Sys2Proof.Machine

/-! ### Bounded access and cursors -/

theorem memRead_eq_some {s : State} {a n : Nat} (h : a + n ≤ s.rbLen.toNat) :
    memRead s a n = some (s.rbMem.readBytes a n) := if_pos h

theorem memRead_eq_none {s : State} {a n : Nat} (h : ¬ a + n ≤ s.rbLen.toNat) : memRead s a n = none := if_neg h

theorem memWrite_eq_some {s : State} {a n : Nat} {v : List Byte} (h : a + n ≤ s.wbCap.toNat) (hv : v.length = n) :
    memWrite s a n v = some (s.wbMem.writeBytes a v) := if_pos ⟨h, hv⟩

theorem memWrite_eq_none {s : State} {a n : Nat} {v : List Byte} (h : ¬ (a + n ≤ s.wbCap.toNat ∧ v.length = n)) :
    memWrite s a n v = none := if_neg h

/-- The cursor moves by exactly n when the sum is within a region. -/
theorem advance_toNat {cur n len : Len} (h : cur.toNat + n.toNat ≤ len.toNat) :
    (advance cur n).toNat = cur.toNat + n.toNat := by
  have := len.isLt
  simp only [advance, BitVec.toNat_ofNat]
  exact Nat.mod_eq_of_lt (by omega)

/-! ### Ending a command -/

theorem respond_eq (r : Response) (s : State) : respond r s = .next (s.reply (.response r)) := rfl

theorem raise_eq (e : Status) (s : State) : raise e s = .next (s.reply (.response { status := e })) := rfl

@[simp] theorem andThen_next (s : State) (k : State → Out) : andThen (.next s) k = k s := rfl

@[simp] theorem lastResponse_reply (r : Response) (s : State) : lastResponse (s.reply (.response r)) = some r := rfl

@[simp] theorem lastData_reply (r : Response) (s : State) : lastData (s.reply (.response r)) = r.data.getD [] := rfl

@[simp] theorem lastStatus_reply (r : Response) (s : State) : lastStatus (s.reply (.response r)) = some r.status := rfl

theorem withPayload_eq {need : Nat} {s : State} (run : List Byte → Out) (h : s.port.payload.length = need) :
    withPayload need s run = run s.port.payload := if_pos h

theorem withPayload_illegal {need : Nat} {s : State} (run : List Byte → Out) (h : s.port.payload.length ≠ need) :
    withPayload need s run = .next (s.reply (.response { status := .illegalCommand })) := if_neg h

/-! ### What each meaning can do: the inversion lemmas -/

theorem execPack_cases (s : State) :
    (s.port.payload.length = 0 ∧
      execPack s = .next (s.reply (.response { status := .ok, data := some (packHeader s.port.hIn) }))) ∨
    (s.port.payload.length ≠ 0 ∧ execPack s = .next (s.reply (.response { status := .illegalCommand }))) := by
  by_cases h : s.port.payload.length = 0
  · exact .inl ⟨h, withPayload_eq _ h⟩
  · exact .inr ⟨h, withPayload_illegal _ h⟩

theorem execUnpack_cases (n : Len) (s : State) :
    (s.port.payload.length = n.toNat ∧ 12 ≤ n.toNat ∧
      execUnpack n s = .next (s.reply (.response
        { status := .ok, hdr := some (unpackHeader (s.port.payload.take 12)), count := some 12 }))) ∨
    (s.port.payload.length = n.toNat ∧ n.toNat < 12 ∧
      execUnpack n s = .next (s.reply (.response { status := .truncatedInput }))) ∨
    (s.port.payload.length ≠ n.toNat ∧
      execUnpack n s = .next (s.reply (.response { status := .illegalCommand }))) := by
  by_cases h : s.port.payload.length = n.toNat
  · by_cases hn : n.toNat < Config.hdrBytes
    · exact .inr (.inl ⟨h, hn, (withPayload_eq _ h).trans (if_pos hn)⟩)
    · exact .inl ⟨h, Nat.not_lt.1 hn, (withPayload_eq _ h).trans (if_neg hn)⟩
  · exact .inr (.inr ⟨h, withPayload_illegal _ h⟩)

theorem execRbBind_cases (n : Len) (s : State) :
    (s.port.payload.length = n.toNat ∧
      execRbBind n s = .next ((s.bindRead (Memory.ofBytes 0 s.port.payload) n).reply (.response { status := .ok }))) ∨
    (s.port.payload.length ≠ n.toNat ∧
      execRbBind n s = .next (s.reply (.response { status := .illegalCommand }))) := by
  by_cases h : s.port.payload.length = n.toNat
  · exact .inl ⟨h, withPayload_eq _ h⟩
  · exact .inr ⟨h, withPayload_illegal _ h⟩

theorem execRbRead_cases (n : Len) (s : State) :
    (s.port.payload.length = 0 ∧ s.rbCur.toNat + n.toNat ≤ s.rbLen.toNat ∧
      execRbRead n s = .next ((s.setReadCursor (advance s.rbCur n)).reply (.response
        { status := .ok, data := some (s.rbMem.readBytes s.rbCur.toNat n.toNat) }))) ∨
    (s.port.payload.length = 0 ∧ s.rbLen.toNat < s.rbCur.toNat + n.toNat ∧
      execRbRead n s = .next (s.reply (.response { status := .outOfBounds }))) ∨
    (s.port.payload.length ≠ 0 ∧
      execRbRead n s = .next (s.reply (.response { status := .illegalCommand }))) := by
  by_cases h : s.port.payload.length = 0
  · by_cases hn : s.rbCur.toNat + n.toNat > s.rbLen.toNat
    · exact .inr (.inl ⟨h, hn, (withPayload_eq _ h).trans (if_pos hn)⟩)
    · refine .inl ⟨h, Nat.not_lt.1 hn, (withPayload_eq _ h).trans ((if_neg hn).trans ?_)⟩
      rw [memRead_eq_some (Nat.not_lt.1 hn)]
      rfl
  · exact .inr (.inr ⟨h, withPayload_illegal _ h⟩)

theorem execWbInit_cases (n : Len) (s : State) :
    (s.port.payload.length = 0 ∧
      execWbInit n s = .next ((s.initWrite n).reply (.response { status := .ok }))) ∨
    (s.port.payload.length ≠ 0 ∧
      execWbInit n s = .next (s.reply (.response { status := .illegalCommand }))) := by
  by_cases h : s.port.payload.length = 0
  · exact .inl ⟨h, withPayload_eq _ h⟩
  · exact .inr ⟨h, withPayload_illegal _ h⟩

theorem execWbWrite_cases (n : Len) (s : State) :
    (s.port.payload.length = n.toNat ∧ s.wbCur.toNat + n.toNat ≤ s.wbCap.toNat ∧
      execWbWrite n s = .next (((s.setWriteMem (s.wbMem.writeBytes s.wbCur.toNat s.port.payload)).setWriteCursor
        (advance s.wbCur n)).reply (.response { status := .ok }))) ∨
    (s.port.payload.length = n.toNat ∧ s.wbCap.toNat < s.wbCur.toNat + n.toNat ∧
      execWbWrite n s = .next (s.reply (.response { status := .outOfBounds }))) ∨
    (s.port.payload.length ≠ n.toNat ∧
      execWbWrite n s = .next (s.reply (.response { status := .illegalCommand }))) := by
  by_cases h : s.port.payload.length = n.toNat
  · by_cases hn : s.wbCur.toNat + n.toNat > s.wbCap.toNat
    · exact .inr (.inl ⟨h, hn, (withPayload_eq _ h).trans (if_pos hn)⟩)
    · refine .inl ⟨h, Nat.not_lt.1 hn, (withPayload_eq _ h).trans ((if_neg hn).trans ?_)⟩
      rw [memWrite_eq_some (Nat.not_lt.1 hn) h]
      rfl
  · exact .inr (.inr ⟨h, withPayload_illegal _ h⟩)

/-! ### The host interface -/

theorem issueCommand_ok {c : Command} {i : Instr} (s : State) (h : decodeWord c.word = .ok i) :
    issueCommand c s = exec i (s.setPort c) := by
  simp only [issueCommand, h]

theorem issueCommand_error {c : Command} {e : Illegal} (s : State) (h : decodeWord c.word = .error e) :
    issueCommand c s = .next ((s.setPort c).reply (.response { status := .illegalCommand })) := by
  simp only [issueCommand, h]
  rfl

theorem step_nil {s : State} (h : s.pending = []) : step s = .next s := by
  simp only [step, h]

theorem step_cons {s : State} {a : HostAction} {rest : List HostAction} (h : s.pending = a :: rest) :
    step s = hostAct a (s.setPending rest) := by
  simp only [step, h]

/-- A host read of a register answers its value or breaks a host duty. -/
theorem hostReadRegister_cases (index : Nat) (s : State) :
    (∃ v, registerAt index s = some v ∧ hostReadRegister index s = .next (s.reply (.register v))) ∨
    (registerAt index s = none ∧ hostReadRegister index s = .refused .registerIndex) := by
  unfold hostReadRegister
  cases h : registerAt index s with
  | none => exact .inr ⟨rfl, rfl⟩
  | some v => exact .inl ⟨v, rfl, rfl⟩

/-- A host read of a write-region byte answers it or breaks a host duty. -/
theorem hostReadRegion_cases (i : Nat) (s : State) :
    (i < s.wbCap.toNat ∧ hostReadRegion i s = .next (s.reply (.regionByte (s.wbMem.read i)))) ∨
    (s.wbCap.toNat ≤ i ∧ hostReadRegion i s = .refused .regionIndex) := by
  by_cases h : i < s.wbCap.toNat
  · exact .inl ⟨h, if_pos h⟩
  · exact .inr ⟨Nat.not_lt.1 h, if_neg h⟩

end Sys2Proof.Machine
end

