-- ==== Sys2Proof/Laws/PerInstr.lean ====
section
/-! SUPPORT. What holds of every instruction as syntax, one lemma per constructor. -/

namespace Sys2Proof

/-- The three fields of a command word, joined as R71 lays them out and read back. -/
theorem commandFields (op : BitVec 4) (n : Len) :
    opField (op ++ (0 : BitVec 12) ++ n : BitVec 32) = op ∧
      rsvField (op ++ (0 : BitVec 12) ++ n : BitVec 32) = 0 ∧
      nField (op ++ (0 : BitVec 12) ++ n : BitVec 32) = n := by
  refine ⟨?_, ?_, ?_⟩
  · apply BitVec.eq_of_getLsbD_eq
    intro i hi
    simp only [opField, BitVec.getLsbD_extractLsb', BitVec.getLsbD_append]
    have h1 : ¬ 28 + i < 16 := by omega
    have h2 : ¬ 28 + i - 16 < 12 := by omega
    simp [hi, h1, h2, show 28 + i - 16 - 12 = i by omega]
  · apply BitVec.eq_of_getLsbD_eq
    intro i hi
    simp only [rsvField, BitVec.getLsbD_extractLsb', BitVec.getLsbD_append]
    have h1 : ¬ 16 + i < 16 := by omega
    simp only [if_neg h1]
    have h2 : 16 + i - 16 < 12 := by omega
    simp only [if_pos h2]
    simp
  · apply BitVec.eq_of_getLsbD_eq
    intro i hi
    simp only [nField, BitVec.getLsbD_extractLsb', BitVec.getLsbD_append]
    have h1 : 0 + i < 16 := by omega
    simp [hi]

/-- The encoded word of an instruction has OP, RSV = 0 and N in the places R71 gives them. -/
def Laws.EncodeFields.Statement (i : Instr) : Prop :=
  opField (encode i) = opCode i ∧ rsvField (encode i) = 0 ∧ nField (encode i) = countField i

theorem Laws.EncodeFields.pack : Laws.EncodeFields.Statement .pack := commandFields _ _

theorem Laws.EncodeFields.unpack (n : Len) : Laws.EncodeFields.Statement (.unpack n) := commandFields _ _

theorem Laws.EncodeFields.rbBind (n : Len) : Laws.EncodeFields.Statement (.rbBind n) := commandFields _ _

theorem Laws.EncodeFields.rbRead (n : Len) : Laws.EncodeFields.Statement (.rbRead n) := commandFields _ _

theorem Laws.EncodeFields.wbInit (n : Len) : Laws.EncodeFields.Statement (.wbInit n) := commandFields _ _

theorem Laws.EncodeFields.wbWrite (n : Len) : Laws.EncodeFields.Statement (.wbWrite n) := commandFields _ _

end Sys2Proof
end

