-- ==== Sys2Proof/Tests/Slice0.lean ====
section
/-! SUPPORT. The model's own tests: the well-formedness smoke test, decoding by words written out from R71 and R73, at most two
small tests per instruction with results from 95_test_vectors.md, and for each statement with hypotheses a witness. -/

namespace Sys2Proof.Tests

open Sys2Proof Sys2Proof.Machine

/-! ### Well-formedness: a term for each check of R75, which the check refuses -/

theorem test_legal_command : (Command.mk 0x3000000C {} (List.replicate 12 0)).legal := by decide

theorem test_refuses_reserved_op : ¬ (Command.mk 0x70000000 {} []).opAssigned := by decide

theorem test_refuses_reserved_bits : ¬ (Command.mk 0x40010004 {} []).rsvZero := by decide

theorem test_refuses_pack_count : ¬ (Command.mk 0x10000001 {} []).packCountZero := by decide

theorem test_refuses_payload_length : ¬ (Command.mk 0x20000005 {} [0, 0, 0, 0]).payloadFits := by decide

theorem test_illegal_commands :
    ¬ (Command.mk 0x00000000 {} []).legal ∧ ¬ (Command.mk 0x40010004 {} []).legal ∧
      ¬ (Command.mk 0x10000001 {} []).legal ∧ ¬ (Command.mk 0x2000000C {} (List.replicate 11 0)).legal := by decide

theorem test_ill_formed_payload : ¬ (Instr.wbInit 4).wellFormed [0] ∧ ¬ (Instr.unpack 5).wellFormed [0, 0, 0, 0] := by decide

/-! ### Decoding: words written out bit by bit from R71 and R73 -/

theorem test_decode_pack : decodeWord 0b0001_000000000000_0000000000000000 = .ok .pack := by decide

theorem test_decode_unpack : decodeWord 0b0010_000000000000_0000000000001100 = .ok (.unpack 12) := by decide

theorem test_decode_rbBind : decodeWord 0b0011_000000000000_0000000000001110 = .ok (.rbBind 14) := by decide

theorem test_decode_rbRead : decodeWord 0b0100_000000000000_1111111111111111 = .ok (.rbRead 65535) := by decide

theorem test_decode_wbInit : decodeWord 0b0101_000000000000_0000000000010000 = .ok (.wbInit 16) := by decide

theorem test_decode_wbWrite : decodeWord 0b0110_000000000000_1000000000000001 = .ok (.wbWrite 0x8001) := by decide

theorem test_decode_reserved :
    decodeWord 0b0000_000000000000_0000000000000000 = .error .reservedOp ∧
      decodeWord 0b0111_000000000000_0000000000000000 = .error .reservedOp ∧
      decodeWord 0b0001_000000000001_0000000000000000 = .error .reservedBits ∧
      decodeWord 0b0001_000000000000_0000000000000001 = .error .packCount := by decide

theorem test_table_word : decodeTableWord 32 0x2000000C = some (.unpack 12) ∧ decodeTableWord 32 0x70000000 = none := by
  decide

/-! ### States the tests run on -/

/-- The bytes 00, 01, ..., 0B of 95_test_vectors.md section 4. -/
def twelve : List Byte := [0, 1, 2, 3, 4, 5, 6, 7, 8, 9, 10, 11]

/-- The 12 bytes of vectors V20 and U4. -/
def everyField : List Byte := [0xAB, 0xCD, 0x95, 0x85, 0x00, 0x01, 0x00, 0x02, 0x00, 0x03, 0x00, 0x04]

/-- After `RB.BIND 12, twelve`, with the cursor moved on, a payload on the port. -/
def reading (cur : Len) (payload : List Byte) : State :=
  { State.reset with rbMem := Memory.ofBytes 0 twelve, rbLen := 12, rbCur := cur, port := ⟨0, {}, payload⟩ }

/-- After `WB.INIT 4` and `WB.WRITE 2, AA BB`, a payload on the port. -/
def writing (payload : List Byte) : State :=
  { State.reset with wbMem := [(0, 0xAA), (1, 0xBB)], wbCap := 4, wbCur := 2, port := ⟨0, {}, payload⟩ }

/-- A header operand and a payload on the port, straight after reset. -/
def offering (h : HIn) (payload : List Byte) : State := { State.reset with port := ⟨0, h, payload⟩ }

/-- The newest response after a meaning. -/
def responseOf (o : Out) : Option Response := (nextState o).bind lastResponse

/-! ### Meanings: at most two tests per instruction -/

-- V20
theorem test_pack_every_field :
    responseOf (exec .pack (offering
      { id := 0xABCD, qr := 1, opcodeIn := 2, aa := 1, rd := 1, ra := 1, rcodeIn := 5, qdcount := 1, ancount := 2,
        nscount := 3, arcount := 4 } [])) = some { status := .ok, data := some everyField } := by decide

-- V25
theorem test_pack_masks :
    responseOf (exec .pack (offering
      { id := 0xBEEF, qr := 1, opcodeIn := 0x1F, tc := 1, rcodeIn := 0x23, ancount := 0xFFFF } [])) =
      some { status := .ok, data := some [0xBE, 0xEF, 0xFA, 0x03, 0, 0, 0xFF, 0xFF, 0, 0, 0, 0] } := by decide

-- U5
theorem test_unpack_trailing_byte :
    responseOf (exec (.unpack 13) (offering {} (everyField ++ [0x99]))) = some
      { status := .ok
        hdr := some ⟨0xABCD, 1, 2, 1, 0, 1, 1, 5, 1, 2, 3, 4⟩
        count := some 12 } := by decide

-- U3
theorem test_unpack_one_short :
    responseOf (exec (.unpack 11) (offering {} (List.replicate 11 0))) = some { status := .truncatedInput } := by decide

-- B-rebind, step 3: the old region and its cursor are gone
theorem test_rbBind_rebind :
    (nextState (exec (.rbBind 1) (reading 2 [0xDD]))).map (fun t => (readRegionBytes t, t.rbLen, t.rbCur)) =
      some ([0xDD], 1, 0) := by decide

-- B-nowrap, step 3
theorem test_rbRead_no_wrap :
    (nextState (exec (.rbRead 0xFFFF) (reading 10 []))).map (fun t => (lastResponse t, t.rbCur)) =
      some (some { status := .outOfBounds }, 10) := by decide

-- B-nowrap, step 4
theorem test_rbRead_to_the_end :
    (nextState (exec (.rbRead 2) (reading 10 []))).map (fun t => (lastResponse t, t.rbCur)) =
      some (some { status := .ok, data := some [0x0A, 0x0B] }, 12) := by decide

-- B-rebind, step 5
theorem test_wbInit_zero_fills :
    (nextState (exec (.wbInit 2) (writing []))).map (fun t => (writeRegionBytes t, t.wbCap, t.wbCur)) =
      some ([0, 0], 2, 0) := by decide

-- B-write, step 3
theorem test_wbWrite_no_partial_write :
    (nextState (exec (.wbWrite 3) (writing [1, 2, 3]))).map (fun t => (lastResponse t, writeRegionBytes t, t.wbCur)) =
      some (some { status := .outOfBounds }, [0xAA, 0xBB, 0, 0], 2) := by decide

-- B-write, step 4
theorem test_wbWrite_to_capacity :
    (nextState (exec (.wbWrite 2) (writing [0xCC, 0xDD]))).map (fun t => (lastResponse t, writeRegionBytes t, t.wbCur)) =
      some (some { status := .ok }, [0xAA, 0xBB, 0xCC, 0xDD], 4) := by decide

-- I8: the payload's length comes before TRUNCATED_INPUT
theorem test_step_payload_mismatch :
    responseOf (step { State.reset with pending := [.issue ⟨0x20000005, {}, [0, 0, 0, 0]⟩] }) =
      some { status := .illegalCommand } := by decide

/-! ### The host interface -/

theorem test_first_step_runs_the_table_word :
    (nextState (step (State.reset.withFetchWord 32 0x10000000))).map lastStatus = some (some .ok) ∧
      (nextState (step (State.reset.withFetchWord 32 0x2000000C))).map lastStatus = some (some .ok) ∧
      (nextState (step (State.reset.withFetchWord 32 0x50000010))).map (·.wbCap) = some 16 := by decide

-- R41, on the state of B-write step 2
theorem test_host_reads_write_cursor :
    (nextState (step { writing [] with pending := [.readRegister 3] })).map (·.replies) = some [.register 2] := by decide

/-! ### The notation of R78, on lines of 95_test_vectors.md; the bytes of B-rebind in the form of R78 (log entry 13) -/

theorem test_parse_read : parseLine "RB.READ  12" = some (.rbRead 12) := by decide

theorem test_parse_bytes : parseLine ("RB.BIND 3, " ++ String.ofList [Char.ofNat 123] ++ "0xAA,0xBB, 0xCC" ++
    String.ofList [Char.ofNat 125]) = some (.rbBind 3 [0xAA, 0xBB, 0xCC]) := by decide

theorem test_parse_header : parseLine ("PACK " ++ String.ofList [Char.ofNat 123] ++ "id=0x1234, rd=1, qd=1" ++
    String.ofList [Char.ofNat 125]) = some (.pack { id := 0x1234, rd := 1, qdcount := 1 }) := by decide

/-! ### Witnesses: states and operands that meet the hypotheses of the statements -/

/-- `writing` meets the invariant. -/
theorem writing_inv (payload : List Byte) : (writing payload).Inv where
  rbWf := Memory.wf_nil
  wbWf := by change Memory.wf [(0, 0xAA), (1, 0xBB)]; decide
  rbWithin := by change Memory.within [] 0; decide
  wbWithin := by change Memory.within [(0, 0xAA), (1, 0xBB)] 4; decide
  rbCursor := by change (0 : Len) ≤ 0; decide
  wbCursor := by change (2 : Len) ≤ 4; decide
  zeroTail := fun i (h : 2 ≤ i) _ => Memory.read_eq_zero fun c (hc : c ∈ [(0, 0xAA), (1, 0xBB)]) => by
    rcases List.mem_cons.1 hc with rfl | hc
    · exact Nat.ne_of_lt (by change 0 < i; omega)
    · rw [List.mem_singleton.1 hc]
      exact Nat.ne_of_lt (by change 1 < i; omega)

theorem witness_StepRunsDecodedInstruction :
    ({ State.reset with pending := [.issue ⟨0x4000FFFF, {}, []⟩] } : State).pending = .issue ⟨0x4000FFFF, {}, []⟩ :: [] ∧
      decodeWord 0x4000FFFF = .ok (.rbRead 0xFFFF) := by decide

theorem witness_DecodeSelectsByTable :
    (0x70000000 : Word) ≠ 0x10000000 ∧
      (0x70000000 : Word).extractLsb' 16 16 ∉ [0x2000#16, 0x3000, 0x4000, 0x5000, 0x6000] ∧
      (0x2000FFFF : Word).extractLsb' 16 16 = 0x2000 ∧ (0x30000000 : Word).extractLsb' 16 16 = 0x3000 ∧
      (0x4000FFFF : Word).extractLsb' 16 16 = 0x4000 ∧ (0x50000000 : Word).extractLsb' 16 16 = 0x5000 ∧
      (0x6000FFFF : Word).extractLsb' 16 16 = 0x6000 := by decide

theorem witness_EncodingIsExact : decodeWord 0x6000FFFF = .ok (.wbWrite 0xFFFF) := by decide

theorem witness_IllegalCommandsAnswered :
    (∃ s : State, s.pending = .issue ⟨0x10000000, {}, [1]⟩ :: []) ∧ ¬ (Command.mk 0x10000000 {} [1]).legal ∧
      (Command.mk 0x10000000 {} []).legal ∧ (Command.mk 0x60000000 {} []).legal :=
  ⟨⟨{ State.reset with pending := [.issue ⟨0x10000000, {}, [1]⟩] }, rfl⟩, by decide, by decide, by decide⟩

theorem witness_IllegalComesFirst : ¬ (Instr.unpack 5).wellFormed (offering {} [0, 0, 0, 0]).port.payload := by decide

theorem witness_StepRefinesSpecExec :
    ({ writing [] with pending := [.issue ⟨0x60000002, {}, [0xCC, 0xDD]⟩] } : State).Inv ∧
      ({ writing [] with pending := [.issue ⟨0x60000002, {}, [0xCC, 0xDD]⟩] } : State).pending =
        .issue ⟨0x60000002, {}, [0xCC, 0xDD]⟩ :: [] :=
  ⟨⟨(writing_inv []).1, (writing_inv []).2, (writing_inv []).3, (writing_inv []).4, (writing_inv []).5,
    (writing_inv []).6, (writing_inv []).7⟩, rfl⟩

theorem witness_PackResult : (offering { qr := 1 } []).port.payload = [] ∧ (offering {} [1]).port.payload ≠ [] := by decide

theorem witness_UnpackResult :
    (∀ k, (fun k => (offering {} twelve).port.payload.getD k 0) k = (offering {} twelve).port.payload.getD k 0) ∧
      (offering {} twelve).port.payload.length = (12 : Len).toNat ∧ 12 ≤ (12 : Len).toNat ∧
      (offering {} (twelve.take 11)).port.payload.length = (11 : Len).toNat ∧ (11 : Len).toNat < 12 ∧
      (offering {} [1]).port.payload.length ≠ (0 : Len).toNat :=
  ⟨fun _ => rfl, by decide, by decide, by decide, by decide, by decide⟩

theorem witness_PackNeverFails :
    ({ State.reset with pending := [.issue ⟨0x10000000, { rcodeIn := 0xFF }, []⟩] } : State).pending =
      .issue ⟨0x10000000, { rcodeIn := 0xFF }, []⟩ :: [] := by decide

theorem witness_MaskedInputsPackAlike :
    (∀ i < 4, (0x1F : BitVec 8).getLsbD i = ({ opcodeIn := 0x0F } : HIn).opcodeIn.getLsbD i) ∧
      (∀ i < 4, (0xF0 : BitVec 8).getLsbD i = ({} : HIn).rcodeIn.getLsbD i) := by decide

theorem witness_UnpackIgnoresTailAndZ :
    (offering {} (everyField ++ [0x99])).port.payload.length = (13 : Len).toNat ∧
      (offering {} (everyField.set 3 0xF5)).port.payload.length = (12 : Len).toNat ∧
      12 ≤ (13 : Len).toNat ∧ 12 ≤ (12 : Len).toNat ∧
      (∀ k < 12, k ≠ 3 → byteAt (offering {} (everyField ++ [0x99])).port.payload k =
        byteAt (offering {} (everyField.set 3 0xF5)).port.payload k) ∧
      byteAt (offering {} (everyField ++ [0x99])).port.payload 3 &&& 0x8F =
        byteAt (offering {} (everyField.set 3 0xF5)).port.payload 3 &&& 0x8F := by decide

theorem witness_HeaderReverseRoundTrip : everyField.length = 12 ∧ (everyField.set 3 0x70).length = 12 := by decide

theorem witness_WireLayoutBitByBit :
    (offering {} []).port.payload = [] ∧ (offering {} twelve).port.payload.length = (12 : Len).toNat ∧
      12 ≤ (12 : Len).toNat := by decide

theorem witness_OneFlagOneBit :
    (offering { qr := 1 } []).port.payload = [] ∧ (offering { qr := 1 } []).port.hIn = { qr := 1 } ∧
      (offering { aa := 1 } []).port.hIn = { aa := 1 } ∧ (offering { tc := 1 } []).port.hIn = { tc := 1 } ∧
      (offering { rd := 1 } []).port.hIn = { rd := 1 } ∧ (offering { ra := 1 } []).port.hIn = { ra := 1 } := by decide

theorem witness_CodecHoldsNoState :
    ((.pack : Instr) = .pack) ∧ (∃ n, Instr.unpack 11 = .unpack n) ∧ (reading 4 []).port = (writing []).port :=
  ⟨rfl, ⟨11, rfl⟩, rfl⟩

theorem witness_BindResult :
    (offering {} twelve).port.payload.length = (12 : Len).toNat ∧ (offering {} []).port.payload.length = (0 : Len).toNat ∧
      (offering {} twelve).port.payload.length ≠ (11 : Len).toNat := by decide

theorem witness_ReadResult :
    (reading 10 []).port.payload = [] ∧ (reading 10 []).rbCur.toNat + (2 : Len).toNat ≤ (reading 10 []).rbLen.toNat ∧
      (reading 10 []).rbLen.toNat < (reading 10 []).rbCur.toNat + (3 : Len).toNat ∧
      (reading 12 []).rbCur.toNat + (0 : Len).toNat ≤ (reading 12 []).rbLen.toNat ∧
      (reading 10 [1]).port.payload ≠ [] := by decide

theorem witness_SplitReads :
    (reading 0 []).rbCur.toNat + (4 : Len).toNat + (8 : Len).toNat ≤ (reading 0 []).rbLen.toNat := by decide

theorem witness_ReadChannelFrame :
    (∃ t, exec (.rbBind 1) (reading 2 [0xDD]) = .next t) ∧
      (∃ t, exec (.rbRead 2) (reading 10 []) = .next t ∧ lastStatus t = some .ok) ∧
      (∃ t, exec (.rbRead 3) (reading 10 []) = .next t ∧ lastStatus t ≠ some .ok) :=
  ⟨⟨_, rfl⟩, ⟨_, rfl, by decide⟩, ⟨_, rfl, by decide⟩⟩

theorem witness_InitResult : (writing []).port.payload = [] ∧ (writing [1]).port.payload ≠ [] := by decide

theorem witness_WriteResult :
    (writing [0xCC, 0xDD]).wbMem.wf ∧ (writing [0xCC, 0xDD]).port.payload.length = (2 : Len).toNat ∧
      (writing [0xCC, 0xDD]).wbCur.toNat + (2 : Len).toNat ≤ (writing [0xCC, 0xDD]).wbCap.toNat ∧
      (writing [1, 2, 3]).port.payload.length = (3 : Len).toNat ∧
      (writing [1, 2, 3]).wbCap.toNat < (writing [1, 2, 3]).wbCur.toNat + (3 : Len).toNat ∧
      (writing [1]).port.payload.length ≠ (2 : Len).toNat := by decide

theorem witness_SplitWrites :
    (writing []).wbCur.toNat + [0xCC#8].length + [0xDD#8].length ≤ (writing []).wbCap.toNat ∧
      [0xCC#8].length + [0xDD#8].length ≤ 65535 := by decide

theorem witness_WriteChannelFrame :
    (∃ t, exec (.wbInit 2) (writing []) = .next t) ∧
      (∃ t, exec (.wbWrite 2) (writing [0xCC, 0xDD]) = .next t ∧ lastStatus t = some .ok) ∧
      (∃ t, exec (.wbWrite 3) (writing [1, 2, 3]) = .next t ∧ lastStatus t ≠ some .ok) :=
  ⟨⟨_, rfl⟩, ⟨_, rfl, by decide⟩, ⟨_, rfl, by decide⟩⟩

theorem witness_OutgoingMessageIsTheWrites : [[0xAA#8, 0xBB], [], [0xCC, 0xDD]].flatten.length ≤ (4 : Len).toNat := by decide

theorem witness_MemReadRule :
    10 + 2 ≤ (reading 0 []).rbLen.toNat ∧ (reading 0 []).rbLen.toNat < 10 + 3 ∧ 12 ≤ (reading 0 []).rbLen.toNat := by decide

theorem witness_MemWriteRule :
    (writing []).wbMem.wf ∧ 2 + 2 ≤ (writing []).wbCap.toNat ∧ [0xCC#8, 0xDD].length = 2 ∧
      (writing []).wbCap.toNat < 2 + 3 := by decide

theorem witness_ReadRegionIsHidden :
    (∀ c rest n, ({ reading 0 [] with pending := [.readRegister 1] } : State).pending = .issue c :: rest →
        decodeWord c.word ≠ .ok (.rbRead n)) ∧
      (∃ t, step { reading 0 [] with pending := [.readRegister 1] } = .next t) ∧
      (∀ c rest n, ({ reading 0 [] with pending := [.readRegister 4] } : State).pending = .issue c :: rest →
        decodeWord c.word ≠ .ok (.rbRead n)) ∧
      (∃ r, step { reading 0 [] with pending := [.readRegister 4] } = .refused r) :=
  ⟨fun _ _ _ h => (by cases h), ⟨_, rfl⟩, fun _ _ _ h => (by cases h), ⟨_, rfl⟩⟩

theorem witness_BoundsAreExact :
    (reading 10 []).port.payload = [] ∧ 65535 < (reading 10 []).rbCur.toNat + (0xFFFF : Len).toNat ∧
      (writing [0xCC, 0xDD]).port.payload.length = (2 : Len).toNat := by decide

/-- A write whose sum is 65536 with the cursor at its greatest value, and a payload of one byte. -/
theorem witness_BoundsAreExact_write :
    ({ writing [1] with wbCap := 0xFFFF, wbCur := 0xFFFF } : State).port.payload.length = (1 : Len).toNat ∧
      65535 < ({ writing [1] with wbCap := 0xFFFF, wbCur := 0xFFFF } : State).wbCur.toNat + (1 : Len).toNat := by decide

theorem witness_ChannelsAreIndependent :
    (reading 4 []).port = ({ reading 4 [] with wbCap := 7 } : State).port ∧
      (reading 4 []).rbMem = ({ reading 4 [] with wbCap := 7 } : State).rbMem ∧
      (reading 4 []).rbLen = ({ reading 4 [] with wbCap := 7 } : State).rbLen ∧
      (reading 4 []).rbCur = ({ reading 4 [] with wbCap := 7 } : State).rbCur ∧
      (writing []).port = ({ writing [] with rbLen := 7 } : State).port ∧
      (writing []).wbMem = ({ writing [] with rbLen := 7 } : State).wbMem ∧
      (writing []).wbCap = ({ writing [] with rbLen := 7 } : State).wbCap ∧
      (writing []).wbCur = ({ writing [] with rbLen := 7 } : State).wbCur := by decide

/-- `reading 4` with a read of 2 and then a read of 1 to come. -/
def twoReads : State :=
  { reading 4 [] with pending := [.issue ⟨0x40000002, {}, []⟩, .issue ⟨0x40000001, {}, []⟩] }

/-- `reading 4` with a read past the end and then a read of 1 to come. -/
def failedRead : State :=
  { reading 4 [] with pending := [.issue ⟨0x40000009, {}, []⟩, .issue ⟨0x40000001, {}, []⟩] }

theorem decode_read_2 : decodeWord 0x40000002 = .ok (.rbRead 2) := by decide

theorem witness_CursorsNeverRewind :
    twoReads.pending = .issue ⟨0x40000002, {}, []⟩ :: [.issue ⟨0x40000001, {}, []⟩] ∧
      (∃ t, step twoReads = .next t) ∧
      (∀ n, decodeWord 0x40000002 ≠ .ok (.rbBind n)) ∧ (∀ n, decodeWord 0x40000002 ≠ .ok (.wbInit n)) ∧
      decodeWord 0x30000000 = .ok (.rbBind 0) ∧ decodeWord 0x50000002 = .ok (.wbInit 2) ∧
      (∃ t, step { twoReads with pending := [.issue ⟨0x30000000, {}, []⟩] } = .next t ∧ lastStatus t = some .ok) ∧
      (∃ t, step { twoReads with pending := [.issue ⟨0x50000002, {}, []⟩] } = .next t ∧ lastStatus t = some .ok) :=
  ⟨rfl, ⟨_, rfl⟩, fun n => (by rw [decode_read_2]; simp), fun n => (by rw [decode_read_2]; simp), by decide, by decide, ⟨_, rfl, by decide⟩,
    ⟨_, rfl, by decide⟩⟩

theorem witness_ErrorsWriteNothing :
    failedRead.pending = .issue ⟨0x40000009, {}, []⟩ :: [.issue ⟨0x40000001, {}, []⟩] ∧
      ∃ t, step failedRead = .next t ∧ lastStatus t = some .outOfBounds ∧ Status.outOfBounds ≠ .ok :=
  ⟨rfl, _, rfl, by decide, by decide⟩

theorem witness_ErrorsAreRecoverable :
    failedRead.pending = .issue ⟨0x40000009, {}, []⟩ :: .issue ⟨0x40000001, {}, []⟩ :: [] ∧
      ∃ t, step failedRead = .next t ∧ lastStatus t ≠ some .ok :=
  ⟨rfl, _, rfl, by decide⟩

theorem witness_OneResponsePerCommand :
    twoReads.pending = .issue ⟨0x40000002, {}, []⟩ :: [.issue ⟨0x40000001, {}, []⟩] ∧
      decodeWord 0x40000002 = .ok (.rbRead 2) ∧ decodeWord 0x10000000 = .ok .pack :=
  ⟨rfl, by decide, by decide⟩

theorem witness_StatusesByCommand :
    ∃ s : State, s.pending = .issue ⟨0x2000000B, {}, twelve.take 11⟩ :: [] :=
  ⟨{ State.reset with pending := [.issue ⟨0x2000000B, {}, twelve.take 11⟩] }, rfl⟩

theorem witness_NeverFaults :
    step { State.reset with pending := [.readRegister 4] } = .refused .registerIndex ∧
      step { State.reset with pending := [.readRegion 0] } = .refused .regionIndex := ⟨rfl, rfl⟩

theorem witness_OnlyNamedCommandsWrite :
    (∃ t, step twoReads = .next t ∧ t.rbCur ≠ twoReads.rbCur) ∧
      (∃ t, step { twoReads with pending := [.issue ⟨0x30000000, {}, []⟩] } = .next t ∧ t.rbLen ≠ twoReads.rbLen) ∧
      (∃ t, step { writing [] with pending := [.reset] } = .next t ∧ t.wbCap ≠ (writing []).wbCap ∧
        t.wbCur ≠ (writing []).wbCur) :=
  ⟨⟨_, rfl, by decide⟩, ⟨_, rfl, by decide⟩, ⟨_, rfl, by decide, by decide⟩⟩

theorem witness_NothingElseIsSampled :
    (Instr.rbRead 2 = .pack → ({ id := 7 } : HIn) = (reading 4 []).port.hIn) ∧
      (Instr.pack = .pack → (reading 4 []).port.hIn = (reading 4 []).port.hIn) :=
  ⟨fun h => (by cases h), fun _ => rfl⟩

theorem witness_RepliesStand : (∃ t, step twoReads = .next t) ∧ ∃ t, step { twoReads with pending := [] } = .next t :=
  ⟨⟨_, rfl⟩, ⟨_, rfl⟩⟩

theorem witness_RepeatedCommands :
    (∃ t u, step { reading 4 [] with pending := [.issue ⟨0x40000002, {}, []⟩, .issue ⟨0x40000002, {}, []⟩] } = .next t ∧
        step t = .next u ∧ lastStatus u = some .ok) ∧
      (∃ t u, step { writing [] with pending := [.issue ⟨0x50000002, {}, []⟩, .issue ⟨0x50000002, {}, []⟩] } = .next t ∧
        step t = .next u) ∧
      decodeWord 0x40000002 = .ok (.rbRead 2) ∧ (2 : Len) ≠ 0 ∧ decodeWord 0x50000002 = .ok (.wbInit 2) :=
  ⟨⟨_, _, rfl, rfl, by decide⟩, ⟨_, _, rfl, rfl⟩, by decide, by decide, by decide⟩

theorem witness_CommandsInOrder :
    twoReads.pending = .issue ⟨0x40000002, {}, []⟩ :: .issue ⟨0x40000001, {}, []⟩ :: [] := rfl

theorem witness_PreparationOrderIrrelevant : twelve.length = (12 : Len).toNat := by decide

theorem witness_HostReads :
    (∃ s : State, s.pending = .readRegister 0 :: []) ∧ (∃ s : State, s.pending = .readRegister 1 :: []) ∧
      (∃ s : State, s.pending = .readRegister 2 :: []) ∧ (∃ s : State, s.pending = .readRegister 3 :: []) ∧
      (∃ s : State, s.pending = .readRegion 3 :: [] ∧ 3 < s.wbCap.toNat) :=
  ⟨⟨{ writing [] with pending := [.readRegister 0] }, rfl⟩, ⟨{ writing [] with pending := [.readRegister 1] }, rfl⟩,
    ⟨{ writing [] with pending := [.readRegister 2] }, rfl⟩, ⟨{ writing [] with pending := [.readRegister 3] }, rfl⟩,
    ⟨{ writing [] with pending := [.readRegion 3] }, rfl, by decide⟩⟩

theorem witness_HostDutiesRefused :
    (∃ s : State, s.pending = .readRegister 4 :: []) ∧ 3 < 4 ∧
      ∃ s : State, s.pending = .readRegion 4 :: [] ∧ s.wbCap.toNat ≤ 4 :=
  ⟨⟨{ writing [] with pending := [.readRegister 4] }, rfl⟩, by decide,
    ⟨{ writing [] with pending := [.readRegion 4] }, rfl, by decide⟩⟩

theorem witness_IdleHoldsState : (writing []).pending = [] := rfl

theorem witness_ResetState : ({ writing [] with pending := [.reset] } : State).pending = .reset :: [] := rfl

theorem witness_BehaviourAfterReset :
    State.reset.sameBlock (offering {} [1]) ∧ 1 ≤ (1 : Len).toNat ∧ [1#8].length = (1 : Len).toNat ∧
      (Instr.pack = .pack ∨ Instr.pack = .unpack 1) :=
  ⟨⟨rfl, rfl, rfl, rfl, rfl, rfl⟩, by decide, by decide, .inl rfl⟩

theorem witness_StepKeepsInvariant : (writing []).Inv ∧ ∃ t, step (writing []) = .next t := ⟨writing_inv [], _, rfl⟩

theorem witness_EveryReachableStateIsWellFormed :
    ∃ t, Sys2Proof.core.run 1 (State.reset.setPending [.issue ⟨0x50000004, {}, []⟩]) = .next t := ⟨_, rfl⟩

theorem witness_PseudoInstructions :
    ({ writing [] with wbCap := 14 } : State).wbCur.toNat + 12 ≤ ({ writing [] with wbCap := 14 } : State).wbCap.toNat ∧
      ({ writing [] with wbCap := 13 } : State).wbCap.toNat < ({ writing [] with wbCap := 13 } : State).wbCur.toNat + 12 ∧
      (reading 0 []).rbCur.toNat + 12 ≤ (reading 0 []).rbLen.toNat ∧
      (reading 1 []).rbLen.toNat < (reading 1 []).rbCur.toNat + 12 ∧
      (reading 1 []).rbCur.toNat + (11 : Len).toNat ≤ (reading 1 []).rbLen.toNat ∧
      (reading 1 []).rbLen.toNat < (reading 1 []).rbCur.toNat + (12 : Len).toNat := by decide

end Sys2Proof.Tests
end

namespace Sys2Proof.Machine

/-! ### What an instruction answers and what it does

The relation `Answers` says once, for every instruction, which response it gives and which update of the state it makes;
`exec_of_answers` and `exists_answers` tie it to `exec`. The statements about the state are read off it by cases. -/

/-- `Answers s i r f`: run on `s`, the instruction `i` answers `r` and updates the state by `f` (R75, R101, R103, R130 to
R133). -/
inductive Answers (s : State) : Instr → Response → (State → State) → Prop where
  | illegal {i : Instr} (hp : ¬ i.wellFormed s.port.payload) : Answers s i { status := .illegalCommand } id
  | packed (hp : Instr.pack.wellFormed s.port.payload) :
      Answers s .pack { status := .ok, data := some (packHeader s.port.hIn) } id
  | unpacked {n : Len} (hp : (Instr.unpack n).wellFormed s.port.payload) (hn : 12 ≤ n.toNat) :
      Answers s (.unpack n)
        { status := .ok, hdr := some (unpackHeader (s.port.payload.take 12)), count := some 12 } id
  | truncated {n : Len} (hp : (Instr.unpack n).wellFormed s.port.payload) (hn : n.toNat < 12) :
      Answers s (.unpack n) { status := .truncatedInput } id
  | bound {n : Len} (hp : (Instr.rbBind n).wellFormed s.port.payload) :
      Answers s (.rbBind n) { status := .ok } (State.bindRead (Memory.ofBytes 0 s.port.payload) n)
  | read {n : Len} (hp : (Instr.rbRead n).wellFormed s.port.payload) (hn : s.rbCur.toNat + n.toNat ≤ s.rbLen.toNat) :
      Answers s (.rbRead n) { status := .ok, data := some (s.rbMem.readBytes s.rbCur.toNat n.toNat) }
        (State.setReadCursor (advance s.rbCur n))
  | readPastEnd {n : Len} (hp : (Instr.rbRead n).wellFormed s.port.payload)
      (hn : s.rbLen.toNat < s.rbCur.toNat + n.toNat) : Answers s (.rbRead n) { status := .outOfBounds } id
  | initialised {n : Len} (hp : (Instr.wbInit n).wellFormed s.port.payload) :
      Answers s (.wbInit n) { status := .ok } (State.initWrite n)
  | written {n : Len} (hp : (Instr.wbWrite n).wellFormed s.port.payload)
      (hn : s.wbCur.toNat + n.toNat ≤ s.wbCap.toNat) :
      Answers s (.wbWrite n) { status := .ok }
        (State.setWriteCursor (advance s.wbCur n) ∘
          State.setWriteMem (s.wbMem.writeBytes s.wbCur.toNat s.port.payload))
  | writePastEnd {n : Len} (hp : (Instr.wbWrite n).wellFormed s.port.payload)
      (hn : s.wbCap.toNat < s.wbCur.toNat + n.toNat) : Answers s (.wbWrite n) { status := .outOfBounds } id

section

variable {i : Instr} {s : State} {r : Response} {f : State → State}

/-- Every instruction has an answer on every state. -/
theorem exists_answers (i : Instr) (s : State) : ∃ r f, Answers s i r f := by
  by_cases hp : i.wellFormed s.port.payload
  · cases i with
    | pack => exact ⟨_, _, .packed hp⟩
    | unpack n => exact (Nat.lt_or_ge n.toNat 12).elim (⟨_, _, .truncated hp ·⟩) (⟨_, _, .unpacked hp ·⟩)
    | rbBind n => exact ⟨_, _, .bound hp⟩
    | rbRead n => exact (Nat.lt_or_ge _ _).elim (⟨_, _, .readPastEnd hp ·⟩) (⟨_, _, .read hp ·⟩)
    | wbInit n => exact ⟨_, _, .initialised hp⟩
    | wbWrite n => exact (Nat.lt_or_ge _ _).elim (⟨_, _, .writePastEnd hp ·⟩) (⟨_, _, .written hp ·⟩)
  · exact ⟨_, _, .illegal hp⟩

/-- R164: every meaning runs under the check of the payload's length. -/
theorem exec_checks_payload (i : Instr) (s : State) : ∃ run, exec i s = withPayload i.payloadNeed s run := by
  cases i with
  | pack => exact ⟨_, show execPack s = withPayload 0 s _ from rfl⟩
  | unpack n => exact ⟨_, show execUnpack n s = withPayload n.toNat s _ from rfl⟩
  | rbBind n => exact ⟨_, show execRbBind n s = withPayload n.toNat s _ from rfl⟩
  | rbRead n => exact ⟨_, show execRbRead n s = withPayload 0 s _ from rfl⟩
  | wbInit n => exact ⟨_, show execWbInit n s = withPayload 0 s _ from rfl⟩
  | wbWrite n => exact ⟨_, show execWbWrite n s = withPayload n.toNat s _ from rfl⟩

/-- R75, R164: a payload of the wrong length makes any instruction illegal. -/
theorem exec_illegal (hp : ¬ i.wellFormed s.port.payload) :
    exec i s = .next (s.reply (.response { status := .illegalCommand })) := by
  obtain ⟨run, h⟩ := exec_checks_payload i s
  rw [h, withPayload_illegal run hp]

/-- The laws of UNPACK, RB.READ and WB.WRITE name two outcomes for a legal payload; when the second one's condition fails, it
is the first. -/
theorem first_outcome {A B C X Y Z : Prop} (h : (A ∧ B ∧ X) ∨ (A ∧ C ∧ Y) ∨ (¬ A ∧ Z)) (hA : A) (hC : ¬ C) :
    X := by
  tauto

/-- When the first one's condition fails, it is the second. -/
theorem second_outcome {A B C X Y Z : Prop} (h : (A ∧ B ∧ X) ∨ (A ∧ C ∧ Y) ∨ (¬ A ∧ Z)) (hA : A) (hB : ¬ B) :
    Y := by
  tauto

/-- `exec` does what `Answers` says. -/
theorem exec_of_answers (h : Answers s i r f) : exec i s = .next ((f s).reply (.response r)) := by
  cases h with
  | illegal hp => exact exec_illegal hp
  | packed hp => exact ((execPack_cases s).resolve_right fun h => h.1 hp).2
  | unpacked hp hn => exact first_outcome (execUnpack_cases _ s) hp (Nat.not_lt.2 hn)
  | truncated hp hn => exact second_outcome (execUnpack_cases _ s) hp (Nat.not_le.2 hn)
  | bound hp => exact ((execRbBind_cases _ s).resolve_right fun h => h.1 hp).2
  | read hp hn => exact first_outcome (execRbRead_cases _ s) hp (Nat.not_lt.2 hn)
  | readPastEnd hp hn => exact second_outcome (execRbRead_cases _ s) hp (Nat.not_le.2 hn)
  | initialised hp => exact ((execWbInit_cases _ s).resolve_right fun h => h.1 hp).2
  | written hp hn => exact first_outcome (execWbWrite_cases _ s) hp (Nat.not_lt.2 hn)
  | writePastEnd hp hn => exact second_outcome (execWbWrite_cases _ s) hp (Nat.not_le.2 hn)

/-- What an instruction can do: it answers a next state, by one of the answers above. -/
theorem exec_cases (i : Instr) (s : State) :
    ∃ r f, Answers s i r f ∧ exec i s = .next ((f s).reply (.response r)) := by
  obtain ⟨r, f, h⟩ := exists_answers i s
  exact ⟨r, f, h, exec_of_answers h⟩

/-- Every answer leaves the model's own fields as they were. -/
theorem Answers.host_frame (h : Answers s i r f) :
    (f s).pending = s.pending ∧ (f s).port = s.port ∧ (f s).replies = s.replies := by
  cases h <;> exact ⟨rfl, rfl, rfl⟩

/-! ### What an instruction samples -/

/-- Two states agree on all that instruction `i` samples: the payload, `H_in` for PACK (R31), and for RB.READ and WB.WRITE
their own channel (R53, R54, R137). -/
def SampleAlike (s s' : State) : Instr → Prop
  | .pack => s'.port.payload = s.port.payload ∧ s'.port.hIn = s.port.hIn
  | .unpack _ | .rbBind _ | .wbInit _ => s'.port.payload = s.port.payload
  | .rbRead _ => s'.port.payload = s.port.payload ∧ s'.rbMem = s.rbMem ∧ s'.rbLen = s.rbLen ∧ s'.rbCur = s.rbCur
  | .wbWrite _ => s'.port.payload = s.port.payload ∧ s'.wbMem = s.wbMem ∧ s'.wbCap = s.wbCap ∧ s'.wbCur = s.wbCur

theorem SampleAlike.payload {s' : State} (h : SampleAlike s s' i) : s'.port.payload = s.port.payload := by
  cases i with
  | pack | rbRead | wbWrite => exact h.1
  | unpack | rbBind | wbInit => exact h

/-- The answer of an instruction depends on nothing but what it samples. -/
theorem Answers.of_sampleAlike {s' : State} (h : Answers s i r f) (hs : SampleAlike s s' i) : Answers s' i r f := by
  have hpay := hs.payload
  cases h with
  | illegal hp => exact .illegal (hpay ▸ hp)
  | packed hp =>
    rw [← hs.2]
    exact .packed (hpay ▸ hp)
  | unpacked hp hn =>
    rw [← hpay] at hp ⊢
    exact .unpacked hp hn
  | truncated hp hn => exact .truncated (hpay ▸ hp) hn
  | bound hp =>
    rw [← hpay] at hp ⊢
    exact .bound hp
  | read hp hn =>
    obtain ⟨-, hmem, hlen, hcur⟩ := hs
    rw [← hmem, ← hcur]
    exact .read (hpay ▸ hp) (hlen ▸ hcur ▸ hn)
  | readPastEnd hp hn =>
    obtain ⟨-, -, hlen, hcur⟩ := hs
    exact .readPastEnd (hpay ▸ hp) (hlen ▸ hcur ▸ hn)
  | initialised hp => exact .initialised (hpay ▸ hp)
  | written hp hn =>
    obtain ⟨-, hmem, hcap, hcur⟩ := hs
    rw [← hmem, ← hcur, ← hpay]
    exact .written (hpay ▸ hp) (hcap ▸ hcur ▸ hn)
  | writePastEnd hp hn =>
    obtain ⟨-, -, hcap, hcur⟩ := hs
    exact .writePastEnd (hpay ▸ hp) (hcap ▸ hcur ▸ hn)

/-! ### What a response carries -/

theorem Answers.data_isSome_iff (h : Answers s i r f) :
    r.data.isSome ↔ r.status = .ok ∧ (i = .pack ∨ ∃ n, i = .rbRead n) := by
  cases h <;> simp

theorem Answers.hdr_isSome_iff (h : Answers s i r f) : r.hdr.isSome ↔ r.status = .ok ∧ ∃ n, i = .unpack n := by
  cases h <;> simp

theorem Answers.count_eq (h : Answers s i r f) : r.count = if r.hdr.isSome then some 12 else none := by
  cases h <;> rfl

theorem Answers.length_pack_data {d : List Byte} (h : Answers s .pack r f) (hd : r.data = some d) :
    d.length = 12 := by
  cases h with
  | illegal => simp at hd
  | packed => rw [← Option.some.inj hd, length_packHeader]

theorem Answers.length_read_data {n : Len} {d : List Byte} (h : Answers s (.rbRead n) r f) (hd : r.data = some d) :
    d.length = n.toNat := by
  cases h with
  | illegal | readPastEnd => simp at hd
  | read => rw [← Option.some.inj hd, Memory.length_readBytes]

/-! ### Which instructions change which piece of state -/

/-- R24, R25: only RB.BIND changes the read region and its length. -/
theorem Answers.rbBind_of_readRegion_ne (h : Answers s i r f)
    (hne : (f s).rbMem ≠ s.rbMem ∨ (f s).rbLen ≠ s.rbLen) : ∃ n, i = .rbBind n := by
  cases h with
  | bound => exact ⟨_, rfl⟩
  | _ => simp at hne

/-- R24: only RB.BIND and RB.READ move the read cursor. -/
theorem Answers.readChannel_of_rbCur_ne (h : Answers s i r f) (hne : (f s).rbCur ≠ s.rbCur) :
    ∃ n, i = .rbBind n ∨ i = .rbRead n := by
  cases h with
  | bound => exact ⟨_, .inl rfl⟩
  | read => exact ⟨_, .inr rfl⟩
  | _ => simp at hne

/-- R24: only WB.INIT changes the capacity. -/
theorem Answers.wbInit_of_wbCap_ne (h : Answers s i r f) (hne : (f s).wbCap ≠ s.wbCap) : ∃ n, i = .wbInit n := by
  cases h with
  | initialised => exact ⟨_, rfl⟩
  | _ => simp at hne

/-- R24, R26: only WB.INIT and WB.WRITE change the write region and move its cursor. -/
theorem Answers.writeChannel_of_writeRegion_ne (h : Answers s i r f)
    (hne : (f s).wbMem ≠ s.wbMem ∨ (f s).wbCur ≠ s.wbCur) : ∃ n, i = .wbInit n ∨ i = .wbWrite n := by
  cases h with
  | initialised => exact ⟨_, .inl rfl⟩
  | written => exact ⟨_, .inr rfl⟩
  | _ => simp at hne

end

/-! ### A step that issues a command -/

theorem step_issue_ok {s : State} {c : Command} {rest : List HostAction} {i : Instr}
    (hq : s.pending = .issue c :: rest) (hd : decodeWord c.word = .ok i) : step s = exec i (s.issued c rest) :=
  (step_cons hq).trans (issueCommand_ok _ hd)

theorem step_issue_error {s : State} {c : Command} {rest : List HostAction} {e : Illegal}
    (hq : s.pending = .issue c :: rest) (hd : decodeWord c.word = .error e) :
    step s = .next ((s.issued c rest).reply (.response { status := .illegalCommand })) :=
  (step_cons hq).trans (issueCommand_error _ hd)

/-- What a step can do: it leaves the block, it is a reset the host asserted, or it runs a decoded instruction. -/
theorem step_cases {s t : State} (h : step s = .next t) :
    s.sameBlock t ∨
    (∃ rest, s.pending = .reset :: rest ∧ t = (s.setPending rest).resetBlock) ∨
    ∃ c rest i r f, s.pending = .issue c :: rest ∧ decodeWord c.word = .ok i ∧ Answers (s.issued c rest) i r f ∧
      t = (f (s.issued c rest)).reply (.response r) := by
  have same : ∀ {u : State}, step s = .next u → s.sameBlock u → s.sameBlock t := fun hstep hu => by
    rw [hstep] at h
    cases h
    exact hu
  match hq : s.pending with
  | [] => exact .inl (same (step_nil hq) ⟨rfl, rfl, rfl, rfl, rfl, rfl⟩)
  | .issue c :: rest =>
    cases hd : decodeWord c.word with
    | error e => exact .inl (same (step_issue_error hq hd) ⟨rfl, rfl, rfl, rfl, rfl, rfl⟩)
    | ok i =>
      obtain ⟨r, f, ha, hexec⟩ := exec_cases i (s.issued c rest)
      rw [step_issue_ok hq hd, hexec] at h
      cases h
      exact .inr (.inr ⟨c, rest, i, r, f, rfl, hd, ha, rfl⟩)
  | .readRegister index :: rest =>
    obtain ⟨v, -, hr⟩ | ⟨-, hr⟩ := hostReadRegister_cases index (s.setPending rest)
    · exact .inl (same ((step_cons hq).trans hr) ⟨rfl, rfl, rfl, rfl, rfl, rfl⟩)
    · cases h.symm.trans ((step_cons hq).trans hr)
  | .readRegion i :: rest =>
    obtain ⟨-, hr⟩ | ⟨-, hr⟩ := hostReadRegion_cases i (s.setPending rest)
    · exact .inl (same ((step_cons hq).trans hr) ⟨rfl, rfl, rfl, rfl, rfl, rfl⟩)
    · cases h.symm.trans ((step_cons hq).trans hr)
  | .reset :: rest =>
    cases h.symm.trans (step_cons hq)
    exact .inr (.inl ⟨rest, rfl, rfl⟩)

/-! ### The well-formedness conditions -/

/-- The conditions speak of the block alone. -/
theorem State.Inv.of_sameBlock {s t : State} (h : s.Inv) (hst : s.sameBlock t) : t.Inv := by
  obtain ⟨hrm, hrl, hrc, hwm, hwl, hwc⟩ := hst
  obtain ⟨_, _, _, _, _, _, _⟩ := h
  constructor <;> simpa only [hrm, hrl, hrc, hwm, hwl, hwc]

/-- R180: the reset block meets the conditions. -/
theorem State.resetBlock_inv (s : State) : s.resetBlock.Inv where
  rbWf := Memory.wf_nil
  wbWf := Memory.wf_nil
  rbWithin := by simp
  wbWithin := by simp
  rbCursor := BitVec.le_refl 0
  wbCursor := BitVec.le_refl 0
  zeroTail := by simp

/-- R130: a region bound to a payload of its length meets the conditions. -/
theorem State.Inv.bindRead {s : State} {p : List Byte} {n : Len} (h : s.Inv) (hp : p.length = n.toNat) :
    (s.bindRead (Memory.ofBytes 0 p) n).Inv :=
  { h with
    rbWf := Memory.ofBytes_wf 0 p
    rbWithin := hp ▸ Memory.within_ofBytes p
    rbCursor := BitVec.le_def.2 (Nat.zero_le _) }

/-- R131: a read within the region keeps the cursor within it. -/
theorem State.Inv.setReadCursor {s : State} {n : Len} (h : s.Inv) (hn : s.rbCur.toNat + n.toNat ≤ s.rbLen.toNat) :
    (s.setReadCursor (advance s.rbCur n)).Inv :=
  { h with rbCursor := BitVec.le_def.2 ((advance_toNat hn).trans_le hn) }

/-- R132: a region of zero bytes meets the conditions. -/
theorem State.Inv.initWrite {s : State} (h : s.Inv) (n : Len) : (s.initWrite n).Inv :=
  { h with
    wbWf := Memory.wf_nil
    wbWithin := by simp
    wbCursor := BitVec.le_def.2 (Nat.zero_le _)
    zeroTail := by simp }

/-- R133: a write within the capacity stays within it, and leaves the bytes from the new cursor on zero, as they were. -/
theorem State.Inv.write {s : State} {p : List Byte} {n : Len} (h : s.Inv) (hp : p.length = n.toNat)
    (hn : s.wbCur.toNat + n.toNat ≤ s.wbCap.toNat) :
    ((s.setWriteMem (s.wbMem.writeBytes s.wbCur.toNat p)).setWriteCursor (advance s.wbCur n)).Inv :=
  { h with
    wbWf := Memory.writeBytes_wf h.wbWf _ p
    wbWithin := Memory.within_writeBytes h.wbWithin (hp ▸ hn)
    wbCursor := BitVec.le_def.2 ((advance_toNat hn).trans_le hn)
    zeroTail := fun i hi hcap => by
      have hi : s.wbCur.toNat + n.toNat ≤ i := advance_toNat hn ▸ hi
      change (s.wbMem.writeBytes s.wbCur.toNat p).read i = 0
      rw [Memory.read_writeBytes_outside _ _ _ _ (.inr (hp ▸ hi))]
      exact h.zeroTail i (by omega) hcap }

/-- Every answer keeps the conditions. -/
theorem Answers.keeps_inv {i : Instr} {s : State} {r : Response} {f : State → State} (h : Answers s i r f)
    (hs : s.Inv) : (f s).Inv := by
  cases h with
  | illegal | packed | unpacked | truncated | readPastEnd | writePastEnd => exact hs
  | bound hp => exact hs.bindRead hp
  | read hp hn => exact hs.setReadCursor hn
  | initialised hp => exact hs.initWrite _
  | written hp hn => exact hs.write hp hn

/-- An invariant of a machine's step holds at the end of every run. -/
theorem run_preserves {M : Host.Core} {P : M.State → Prop} (hstep : ∀ s t, P s → M.step s = .next t → P t) {k : Nat}
    {s t : M.State} (hs : P s) (h : M.run k s = .next t) : P t := by
  induction k generalizing s with
  | zero =>
    cases h
    exact hs
  | succ k ih =>
    rw [Host.Core.run] at h
    cases hu : M.step s with
    | next u => exact ih (hstep s u hs hu) (by rwa [hu] at h)
    | fault f => simp [hu] at h
    | refused r => simp [hu] at h

/-! ### The read region is hidden -/

/-- Other bytes stand in the read region. -/
def State.setReadMem (m : Memory) (s : State) : State := { s with rbMem := m }

/-- Whatever stands in the read region, an interaction that runs no RB.READ goes the same way, up to what stands there
after it. -/
theorem hostAct_setReadMem (a : HostAction) (s : State) (m : Memory)
    (hread : ∀ c n, a = .issue c → decodeWord c.word ≠ .ok (.rbRead n)) :
    ∃ m', hostAct a (s.setReadMem m) = andThen (hostAct a s) fun t => .next (t.setReadMem m') := by
  cases a with
  | issue c =>
    change ∃ m', issueCommand c (s.setReadMem m) = andThen (issueCommand c s) fun t => .next (t.setReadMem m')
    cases hd : decodeWord c.word with
    | error e => exact ⟨m, by rw [issueCommand_error _ hd, issueCommand_error _ hd]; rfl⟩
    | ok i =>
      obtain ⟨r, f, ha⟩ := exists_answers i (s.setPort c)
      have hs : SampleAlike (s.setPort c) ((s.setReadMem m).setPort c) i := by
        cases i with
        | pack => exact ⟨rfl, rfl⟩
        | unpack | rbBind | wbInit => exact rfl
        | rbRead n => exact absurd hd (hread c n rfl)
        | wbWrite => exact ⟨rfl, rfl, rfl, rfl⟩
      refine ⟨(f ((s.setReadMem m).setPort c)).rbMem, ?_⟩
      rw [issueCommand_ok _ hd, issueCommand_ok _ hd, exec_of_answers ha, exec_of_answers (ha.of_sampleAlike hs),
        andThen_next]
      cases ha <;> rfl
  | readRegister index =>
    refine ⟨m, ?_⟩
    match index with
    | 0 | 1 | 2 | 3 => rfl
    | _ + 4 => rfl
  | readRegion i =>
    refine ⟨m, ?_⟩
    change hostReadRegion i (s.setReadMem m) = andThen (hostReadRegion i s) _
    obtain ⟨hi, h⟩ | ⟨hi, h⟩ := hostReadRegion_cases i s
    · rw [h]
      exact if_pos hi
    · rw [h]
      exact if_neg (Nat.not_lt.2 hi)
  | reset => exact ⟨[], rfl⟩

/-- Whatever stands in the read region, a step that runs no RB.READ goes the same way, up to what stands there after it. -/
theorem step_setReadMem (s : State) (m : Memory)
    (hread : ∀ c rest n, s.pending = .issue c :: rest → decodeWord c.word ≠ .ok (.rbRead n)) :
    ∃ m', step (s.setReadMem m) = andThen (step s) fun t => .next (t.setReadMem m') := by
  cases hq : s.pending with
  | nil => exact ⟨m, by rw [step_nil hq, step_nil (s := s.setReadMem m) hq, andThen_next]⟩
  | cons a rest =>
    rw [step_cons hq, step_cons (s := s.setReadMem m) hq]
    exact hostAct_setReadMem a (s.setPending rest) m fun c n ha => hread c rest n (ha ▸ hq)

/-! ### The outgoing message -/

/-- R71, R73: the decoder reads an encoded instruction back, field by field. -/
theorem decodeWord_encode (i : Instr) : decodeWord (encode i) = .ok i := by
  have hfields : Laws.EncodeFields.Statement i := commandFields _ _
  obtain ⟨hop, hrsv, hn⟩ := hfields
  cases i <;> simp [decodeWord, selectOp, hop, hrsv, hn, opCode, countField]

theorem issueCommand_encodeCommand (i : Instr) (h : HIn) (p : List Byte) (s : State) :
    issueCommand (encodeCommand i h p) s = exec i (s.setPort (encodeCommand i h p)) :=
  issueCommand_ok s (decodeWord_encode i)

/-- The WB.WRITE command that writes these bytes. -/
def writeCommand (p : List Byte) : Command := encodeCommand (.wbWrite (BitVec.ofNat 16 p.length)) {} p

/-- The state after a successful `writeCommand p` (R133). -/
def State.afterWrite (p : List Byte) (s : State) : State :=
  (((s.setPort (writeCommand p)).setWriteMem (s.wbMem.writeBytes s.wbCur.toNat p)).setWriteCursor
    (advance s.wbCur (BitVec.ofNat 16 p.length))).reply (.response { status := .ok })

theorem toNat_ofNat_length {p : List Byte} {n : Len} (h : p.length ≤ n.toNat) :
    (BitVec.ofNat 16 p.length).toNat = p.length :=
  Nat.mod_eq_of_lt (Nat.lt_of_le_of_lt h n.isLt)

theorem State.afterWrite_wbCur {p : List Byte} {s : State} (h : s.wbCur.toNat + p.length ≤ s.wbCap.toNat) :
    (s.afterWrite p).wbCur.toNat = s.wbCur.toNat + p.length := by
  have hlen := toNat_ofNat_length (n := s.wbCap) (p := p) (by omega)
  change (advance s.wbCur (BitVec.ofNat 16 p.length)).toNat = _
  rw [advance_toNat (len := s.wbCap) (hlen.symm ▸ h), hlen]

/-- A write that fits succeeds. -/
theorem issueCommand_writeCommand {p : List Byte} {s : State} (h : s.wbCur.toNat + p.length ≤ s.wbCap.toNat) :
    issueCommand (writeCommand p) s = .next (s.afterWrite p) := by
  have hlen := toNat_ofNat_length (n := s.wbCap) (p := p) (by omega)
  rw [writeCommand, issueCommand_encodeCommand]
  exact exec_of_answers (.written hlen.symm (hlen.symm ▸ h))

/-- Writes that fit together all succeed and store their bytes one after the other (R136, R42). -/
theorem issueAll_writes (ps : List (List Byte)) (s : State) (h : s.wbCur.toNat + ps.flatten.length ≤ s.wbCap.toNat) :
    ∃ t, issueAll (ps.map writeCommand) s = .next t ∧ t.wbMem = s.wbMem.writeBytes s.wbCur.toNat ps.flatten ∧
      t.wbCap = s.wbCap ∧ t.wbCur.toNat = s.wbCur.toNat + ps.flatten.length ∧
      t.replies = List.replicate ps.length (.response { status := .ok }) ++ s.replies := by
  induction ps generalizing s with
  | nil => exact ⟨s, rfl, rfl, rfl, rfl, rfl⟩
  | cons p ps ih =>
    rw [List.flatten_cons, List.length_append, ← Nat.add_assoc] at h
    have hp : s.wbCur.toNat + p.length ≤ s.wbCap.toNat := by omega
    have hcur := State.afterWrite_wbCur hp
    obtain ⟨t, hrun, hmem, hcap, hcur', hreplies⟩ := ih (s.afterWrite p) (hcur.symm ▸ h)
    refine ⟨t, ?_, ?_, hcap, ?_, ?_⟩
    · rw [List.map_cons, issueAll, issueCommand_writeCommand hp, andThen_next, hrun]
    · rw [hmem, hcur, List.flatten_cons, Memory.writeBytes_append]
      rfl
    · rw [hcur', hcur, List.flatten_cons, List.length_append, Nat.add_assoc]
    · rw [hreplies, List.length_cons, List.replicate_succ', List.append_assoc]
      rfl

/-- The state after a successful WB.INIT (R132). -/
def State.afterInit (n : Len) (s : State) : State :=
  ((s.setPort (encodeCommand (.wbInit n) {} [])).initWrite n).reply (.response { status := .ok })

/-- WB.INIT without a payload succeeds. -/
theorem issueCommand_wbInit (n : Len) (s : State) :
    issueCommand (encodeCommand (.wbInit n) {} []) s = .next (s.afterInit n) := by
  rw [issueCommand_encodeCommand]
  exact exec_of_answers (.initialised rfl)

/-! ### The host read port -/

theorem registerAt_eq_none {index : Nat} (s : State) (h : 3 < index) : registerAt index s = none := by
  obtain ⟨k, rfl⟩ := Nat.exists_eq_add_of_le' h
  rfl

/-! ### The statements of the state's family -/

/-- Settles O50: a step leaves the block, resets it, or runs an instruction, and each keeps the conditions. -/
theorem stepKeepsInvariant : Obligations.StepKeepsInvariant := by
  intro s t hs hstep
  obtain hsame | ⟨rest, -, rfl⟩ | ⟨c, rest, i, r, f, -, -, ha, rfl⟩ := step_cases hstep
  · exact hs.of_sameBlock hsame
  · exact State.resetBlock_inv _
  · have hissued : (s.issued c rest).Inv := hs.of_sameBlock ⟨rfl, rfl, rfl, rfl, rfl, rfl⟩
    exact (ha.keeps_inv hissued).of_sameBlock ⟨rfl, rfl, rfl, rfl, rfl, rfl⟩

/-- Settles O51: the state after reset is its own reset block, and every step keeps the conditions. -/
theorem everyReachableStateIsWellFormed : Obligations.EveryReachableStateIsWellFormed := fun q _ _ h =>
  run_preserves (M := Sys2Proof.core) (P := State.Inv) stepKeepsInvariant
    (State.resetBlock_inv (State.reset.setPending q)) h

/-- Settles O18: PACK and UNPACK sample the port alone, and each of their answers updates nothing. -/
theorem codecHoldsNoState : Obligations.CodecHoldsNoState := by
  intro i hi s s' hport
  obtain ⟨r, f, ha⟩ := exists_answers i s
  have hs : SampleAlike s s' i := by
    obtain rfl | ⟨n, rfl⟩ := hi
    · exact ⟨congrArg (·.payload) hport.symm, congrArg (·.hIn) hport.symm⟩
    · exact congrArg (·.payload) hport.symm
  have hf : f = id := by
    obtain rfl | ⟨n, rfl⟩ := hi <;> cases ha <;> rfl
  subst hf
  exact ⟨_, _, r, exec_of_answers ha, exec_of_answers (ha.of_sampleAlike hs), ⟨rfl, rfl, rfl, rfl, rfl, rfl⟩,
    rfl, rfl, fun _ => rfl, fun _ => rfl, rfl, rfl⟩

/-- Settles O27: the writes after WB.INIT store their joined payloads from offset 0 on in an empty region. -/
theorem outgoingMessageIsTheWrites : Obligations.OutgoingMessageIsTheWrites := by
  intro s n ps hfit
  have hzero : (s.afterInit n).wbCur.toNat = 0 := rfl
  obtain ⟨t, hrun, hmem, hcap, hcur, hreplies⟩ :=
    issueAll_writes ps (s.afterInit n) (by rwa [hzero, Nat.zero_add])
  rw [hzero, Nat.zero_add] at hcur
  rw [hzero] at hmem
  refine ⟨t, ?_, ?_, hcap, hcur, fun a ha _ => ?_, ?_⟩
  · rw [issueAll, issueCommand_wbInit]
    exact hrun
  · rw [outgoingMessage, hcur, hmem]
    exact Memory.readBytes_writeBytes Memory.wf_nil 0 _
  · rw [hmem, Memory.read_writeBytes_outside _ _ _ _ (by omega)]
    rfl
  · rw [hreplies, List.replicate_succ', List.append_assoc]
    rfl

/-- Settles O30: the step with other bytes in the read region is the same step but for what stands in the read region after
it, which the statement does not speak of. -/
theorem readRegionIsHidden : Obligations.ReadRegionIsHidden := by
  intro s m hread
  obtain ⟨m', h⟩ := step_setReadMem s m hread
  refine ⟨fun t ht => ?_, fun r hr => ?_⟩
  · rw [ht] at h
    exact ⟨_, h, rfl, rfl, rfl, rfl, rfl, rfl, rfl⟩
  · rw [hr] at h
    exact h

/-- Settles O36: an illegal word gets the bare ILLEGAL_COMMAND, and every other word its instruction's answer. -/
theorem oneResponsePerCommand : Obligations.OneResponsePerCommand := by
  intro s c rest hq
  cases hd : decodeWord c.word with
  | error e => exact ⟨_, _, step_issue_error hq hd, rfl, rfl, by simp, by simp, by simp, by simp, by simp⟩
  | ok i =>
    obtain ⟨r, f, ha, hexec⟩ := exec_cases i (s.issued c rest)
    obtain ⟨hpending, -, hreplies⟩ := ha.host_frame
    simp only [Except.ok.injEq]
    exact ⟨_, r, (step_issue_ok hq hd).trans hexec, hpending, congrArg (_ :: ·) hreplies, ha.data_isSome_iff,
      fun h d => (h ▸ ha).length_pack_data, fun n h d => (h ▸ ha).length_read_data, ha.hdr_isSome_iff, ha.count_eq⟩

/-- Settles O39: a step that is no reset and changes the block ran an instruction, whose update tells which one it is. -/
theorem onlyNamedCommandsWrite : Obligations.OnlyNamedCommandsWrite := by
  intro s t hstep
  obtain ⟨hrm, hrl, hrc, hwm, hwl, hwc⟩ | ⟨rest, hq, -⟩ | ⟨c, rest, i, r, f, hq, hd, ha, rfl⟩ := step_cases hstep
  · simp [hrm, hrl, hrc, hwm, hwl, hwc]
  · simp [hq]
  · refine ⟨fun hne => .inl ?_, fun hne => .inl ?_, fun hne => .inl ?_, fun hne => .inl ?_⟩
    · obtain ⟨n, hi⟩ := ha.rbBind_of_readRegion_ne hne
      exact ⟨c, rest, n, hq, hi ▸ hd⟩
    · obtain ⟨n, hi⟩ := ha.readChannel_of_rbCur_ne hne
      exact ⟨c, rest, n, hq, hi.imp (fun h => hd.trans (congrArg _ h)) (fun h => hd.trans (congrArg _ h))⟩
    · obtain ⟨n, hi⟩ := ha.wbInit_of_wbCap_ne hne
      exact ⟨c, rest, n, hq, hi ▸ hd⟩
    · obtain ⟨n, hi⟩ := ha.writeChannel_of_writeRegion_ne hne
      exact ⟨c, rest, n, hq, hi.imp (fun h => hd.trans (congrArg _ h)) (fun h => hd.trans (congrArg _ h))⟩

/-- Settles O40: the host's fields are not sampled, but for PACK's `H_in`, and no answer's update touches them. -/
theorem nothingElseIsSampled : Obligations.NothingElseIsSampled := by
  intro i s h q x hpack
  obtain ⟨r, f, ha⟩ := exists_answers i s
  have hs : SampleAlike s { s with port := { s.port with hIn := h }, pending := q, replies := x } i := by
    cases i with
    | pack => exact ⟨rfl, hpack rfl⟩
    | unpack | rbBind | wbInit => exact rfl
    | rbRead | wbWrite => exact ⟨rfl, rfl, rfl, rfl⟩
  refine ⟨_, r, exec_of_answers ha, ?_, (exec_of_answers (ha.of_sampleAlike hs)).trans ?_⟩
  · rw [State.reply_replies, ha.host_frame.2.2]
  · cases ha <;> rfl

/-- Settles O45: the registers are read by their index, and a byte below WB_CAP passes the check of its bound. -/
theorem hostReads : Obligations.HostReads := by
  intro s rest
  refine ⟨step_cons, step_cons, step_cons, step_cons, fun i hq hi => ?_⟩
  exact (step_cons hq).trans (if_pos hi)

/-- Settles O46: no register has an index above 3, and a byte at or above WB_CAP fails the check of its bound. -/
theorem hostDutiesRefused : Obligations.HostDutiesRefused := by
  intro s rest i
  refine ⟨fun hq hi => (step_cons hq).trans ?_, fun hq hi => (step_cons hq).trans (if_neg (Nat.not_lt.2 hi))⟩
  obtain ⟨v, hv, -⟩ | ⟨-, h⟩ := hostReadRegister_cases i (s.setPending rest)
  · cases (registerAt_eq_none _ hi).symm.trans hv
  · exact h

end Sys2Proof.Machine

namespace Sys2Proof.Machine

/-! ### Bounded access byte by byte -/

theorem byteAt_readBytes (m : Memory) (a : Nat) {n k : Nat} (h : k < n) :
    byteAt (m.readBytes a n) k = m.read (a + k) := by
  have hk : k < (m.readBytes a n).length := by rwa [Memory.length_readBytes]
  rw [byteAt_of_lt hk, Memory.getElem_readBytes]

theorem Memory.read_writeBytes_byteAt {m : Memory} (hm : m.wf) (a : Nat) {v : List Byte} {k : Nat}
    (h : k < v.length) : (m.writeBytes a v).read (a + k) = byteAt v k := by
  rw [Memory.read_writeBytes_inside hm a v k h, byteAt_of_lt h]

/-! ### When a bounded access succeeds -/

section

variable {i : Instr} {s : State} {r : Response} {f : State → State} {n : Len}

/-- An instruction that answers `r` ends with status OK exactly when `r` says so. -/
theorem exec_ok_iff (h : Answers s i r f) :
    (∃ t, exec i s = .next t ∧ lastStatus t = some .ok) ↔ r.status = .ok := by
  simp [exec_of_answers h]

/-- R131: RB.READ is OK exactly when it has no payload and ends within the region. -/
theorem Answers.read_ok_iff (h : Answers s (.rbRead n) r f) :
    r.status = .ok ↔
      (Instr.rbRead n).wellFormed s.port.payload ∧ s.rbCur.toNat + n.toNat ≤ s.rbLen.toNat := by
  cases h with
  | illegal hp => exact iff_of_false nofun fun h => hp h.1
  | read hp hn => exact iff_of_true rfl ⟨hp, hn⟩
  | readPastEnd hp hn => exact iff_of_false nofun fun h => Nat.not_le.2 hn h.2

/-- R133: WB.WRITE is OK exactly when its payload has n bytes and ends within the capacity. -/
theorem Answers.write_ok_iff (h : Answers s (.wbWrite n) r f) :
    r.status = .ok ↔
      (Instr.wbWrite n).wellFormed s.port.payload ∧ s.wbCur.toNat + n.toNat ≤ s.wbCap.toNat := by
  cases h with
  | illegal hp => exact iff_of_false nofun fun h => hp h.1
  | written hp hn => exact iff_of_true rfl ⟨hp, hn⟩
  | writePastEnd hp hn => exact iff_of_false nofun fun h => Nat.not_le.2 hn h.2

/-- A successful RB.READ moves the cursor by exactly n. -/
theorem Answers.rbCur_of_read_ok (h : Answers s (.rbRead n) r f) (hok : r.status = .ok) :
    (f s).rbCur.toNat = s.rbCur.toNat + n.toNat := by
  cases h with
  | illegal | readPastEnd => cases hok
  | read _ hn => exact advance_toNat hn

/-- Repeating the update of an RB.BIND or a WB.INIT, whatever the model's own fields are then, leaves the block as it was
after the first (R59). -/
theorem Answers.repeated_sameBlock {t : State} (h : Answers s i r f) (hi : i = .rbBind n ∨ i = .wbInit n)
    (ht : (f s).sameBlock t) : (f s).sameBlock (f t) := by
  obtain ⟨hrm, hrl, hrc, hwm, hwl, hwc⟩ := ht
  cases h with
  | illegal => exact ⟨hrm, hrl, hrc, hwm, hwl, hwc⟩
  | bound => exact ⟨rfl, rfl, rfl, hwm, hwl, hwc⟩
  | initialised => exact ⟨hrm, hrl, hrc, rfl, rfl, rfl⟩
  | _ => simp at hi

/-- No answer's update reads or changes what the host still does. -/
theorem Answers.setPending_comm (h : Answers s i r f) (t : State) (q : List HostAction) :
    f (t.setPending q) = (f t).setPending q := by
  cases h <;> rfl

end

/-! ### Commands one after the other -/

/-- A command does the same whatever the host still does after it. -/
theorem issueCommand_setPending (c : Command) (s : State) (q : List HostAction) :
    ∃ t, issueCommand c s = .next t ∧ issueCommand c (s.setPending q) = .next (t.setPending q) := by
  cases hd : decodeWord c.word with
  | error e => exact ⟨_, issueCommand_error s hd, issueCommand_error _ hd⟩
  | ok i =>
    obtain ⟨r, f, ha⟩ := exists_answers i (s.setPort c)
    have hs : SampleAlike (s.setPort c) ((s.setPending q).setPort c) i := by
      cases i with
      | pack => exact ⟨rfl, rfl⟩
      | unpack | rbBind | wbInit => exact rfl
      | rbRead | wbWrite => exact ⟨rfl, rfl, rfl, rfl⟩
    refine ⟨_, (issueCommand_ok s hd).trans (exec_of_answers ha), ?_⟩
    have hcomm : f ((s.setPending q).setPort c) = (f (s.setPort c)).setPending q := ha.setPending_comm (s.setPort c) q
    rw [issueCommand_ok _ hd, exec_of_answers (ha.of_sampleAlike hs), hcomm]
    rfl

/-- A command adds one response to what the host got back. -/
theorem issueCommand_replies {c : Command} {s t : State} (h : issueCommand c s = .next t) :
    ∃ r, t.replies = .response r :: s.replies := by
  cases hd : decodeWord c.word with
  | error e =>
    cases h.symm.trans (issueCommand_error s hd)
    exact ⟨_, rfl⟩
  | ok i =>
    obtain ⟨r, f, ha, hexec⟩ := exec_cases i (s.setPort c)
    cases h.symm.trans ((issueCommand_ok s hd).trans hexec)
    exact ⟨r, congrArg (_ :: ·) ha.host_frame.2.2⟩

/-- An interaction of the host adds at most one reply (R33, R40). -/
theorem hostAct_replies {a : HostAction} {s t : State} (h : hostAct a s = .next t) :
    t.replies = s.replies ∨ ∃ r, t.replies = r :: s.replies := by
  cases a with
  | issue c =>
    obtain ⟨r, hr⟩ := issueCommand_replies h
    exact .inr ⟨_, hr⟩
  | readRegister index =>
    obtain ⟨v, -, hr⟩ | ⟨-, hr⟩ := hostReadRegister_cases index s
    · cases h.symm.trans hr
      exact .inr ⟨_, rfl⟩
    · cases h.symm.trans hr
  | readRegion i =>
    obtain ⟨-, hr⟩ | ⟨-, hr⟩ := hostReadRegion_cases i s
    · cases h.symm.trans hr
      exact .inr ⟨_, rfl⟩
    · cases h.symm.trans hr
  | reset =>
    cases h
    exact .inl rfl

/-- What a step that issues a decoded instruction does. -/
theorem step_issue_cases {s t : State} {c : Command} {rest : List HostAction} {i : Instr}
    (hq : s.pending = .issue c :: rest) (hd : decodeWord c.word = .ok i) (h : step s = .next t) :
    ∃ r f, Answers (s.issued c rest) i r f ∧ t = (f (s.issued c rest)).reply (.response r) ∧ t.pending = rest := by
  obtain ⟨r, f, ha, hexec⟩ := exec_cases i (s.issued c rest)
  cases h.symm.trans ((step_issue_ok hq hd).trans hexec)
  exact ⟨r, f, ha, rfl, ha.host_frame.1⟩

/-- R59: an RB.BIND or a WB.INIT issued again answers the same and leaves the block as it was. -/
theorem step_repeated_sameBlock {s t u : State} {c : Command} {rest : List HostAction} {i : Instr} {n : Len}
    (hq : s.pending = .issue c :: .issue c :: rest) (hd : decodeWord c.word = .ok i)
    (hi : i = .rbBind n ∨ i = .wbInit n) (hst : step s = .next t) (htu : step t = .next u) : t.sameBlock u := by
  obtain ⟨r, f, ha, rfl, hpending⟩ := step_issue_cases hq hd hst
  have hs : SampleAlike (s.issued c (.issue c :: rest))
      (State.issued c rest ((f (s.issued c (.issue c :: rest))).reply (.response r))) i := by
    obtain rfl | rfl := hi <;> exact rfl
  cases htu.symm.trans ((step_issue_ok hpending hd).trans (exec_of_answers (ha.of_sampleAlike hs)))
  exact ha.repeated_sameBlock hi ⟨rfl, rfl, rfl, rfl, rfl, rfl⟩

/-- R59: a successful RB.READ of at least one byte moves the cursor. -/
theorem step_read_not_sameBlock {t u : State} {c : Command} {rest : List HostAction} {n : Len}
    (hq : t.pending = .issue c :: rest) (hd : decodeWord c.word = .ok (.rbRead n)) (htu : step t = .next u)
    (hok : lastStatus u = some .ok) (hn : n ≠ 0) : ¬ t.sameBlock u := by
  obtain ⟨r, f, ha, rfl, -⟩ := step_issue_cases hq hd htu
  have hcur : (f (t.issued c rest)).rbCur.toNat = t.rbCur.toNat + n.toNat :=
    ha.rbCur_of_read_ok (Option.some.inj hok)
  have hpos : n.toNat ≠ 0 := fun h0 => hn (BitVec.eq_of_toNat_eq h0)
  rintro ⟨-, -, hsame, -⟩
  rw [State.reply_rbCur] at hsame
  rw [hsame] at hcur
  omega

/-! ### The statements of the memory's family -/

/-- Settles O28: within the region MemRead is the region's reading, and past RB_LEN the check of the bound fails. -/
theorem memReadRule : Obligations.MemReadRule := by
  intro s a n
  refine ⟨fun h => ?_, fun h => memRead_eq_none (Nat.not_le.2 h), fun h => memRead_eq_some h⟩
  exact ⟨_, memRead_eq_some h, Memory.length_readBytes _ _ _, fun k hk => byteAt_readBytes _ a hk⟩

/-- Settles O29: within the capacity MemWrite stores the sequence, and past WB_CAP the check of the bound fails. -/
theorem memWriteRule : Obligations.MemWriteRule := by
  intro s a n v hwf
  refine ⟨?_, fun h => memWrite_eq_none fun hfit => Nat.not_le.2 h hfit.1⟩
  rintro h rfl
  refine ⟨_, memWrite_eq_some h rfl, fun k hk => Memory.read_writeBytes_byteAt hwf a hk,
    Memory.read_writeBytes_outside _ a v, Memory.writeBytes_wf hwf a v, fun h0 => ?_⟩
  rw [List.eq_nil_of_length_eq_zero h0]
  rfl

/-- Settles O31: the answers decide on the sum over the naturals, which no 16-bit length reaches above 65535. -/
theorem boundsAreExact : Obligations.BoundsAreExact := by
  intro n s
  refine ⟨fun hp => ⟨?_, fun hbig => ?_⟩, fun hp => ⟨?_, fun hbig => ?_⟩⟩
  · have hp : (Instr.rbRead n).wellFormed s.port.payload := List.length_eq_zero_iff.2 hp
    obtain ⟨r, f, ha⟩ := exists_answers (.rbRead n) s
    rw [exec_ok_iff ha, ha.read_ok_iff, and_iff_right hp]
  · have hlen := s.rbLen.isLt
    exact exec_of_answers (.readPastEnd (List.length_eq_zero_iff.2 hp) (by omega))
  · have hp : (Instr.wbWrite n).wellFormed s.port.payload := hp
    obtain ⟨r, f, ha⟩ := exists_answers (.wbWrite n) s
    rw [exec_ok_iff ha, ha.write_ok_iff, and_iff_right hp]
  · have hcap := s.wbCap.isLt
    exact exec_of_answers (.writePastEnd hp (by omega))

/-- Settles O41: an idle step changes nothing, and any other carries out one interaction. -/
theorem repliesStand : Obligations.RepliesStand := by
  intro s t hstep
  cases hq : s.pending with
  | nil =>
    cases hstep.symm.trans (step_nil hq)
    exact .inl rfl
  | cons a rest =>
    rw [step_cons hq] at hstep
    exact hostAct_replies (s := s.setPending rest) hstep

/-- Settles O42: a repeated RB.BIND or WB.INIT writes what already stands, and a repeated RB.READ moves the cursor. -/
theorem repeatedCommands : Obligations.RepeatedCommands := by
  intro s t u c rest n hq hst htu
  refine ⟨fun hd => ?_, fun hd hok hn => ?_⟩
  · obtain hd | hd := hd
    · exact step_repeated_sameBlock hq hd (.inl rfl) hst htu
    · exact step_repeated_sameBlock hq hd (.inr rfl) hst htu
  · obtain ⟨_, _, -, -, hpending⟩ := step_issue_cases hq hd hst
    exact step_read_not_sameBlock hpending hd htu hok hn

/-- Settles O43: the two steps run the two commands, which do the same whatever the host still does. -/
theorem commandsInOrder : Obligations.CommandsInOrder := by
  intro s c d rest hq
  obtain ⟨t, ht, ht'⟩ := issueCommand_setPending c s (.issue d :: rest)
  obtain ⟨v, hv, hv'⟩ := issueCommand_setPending d t rest
  have hsecond : step (t.setPending (.issue d :: rest)) = .next (v.setPending rest) :=
    (step_cons (a := .issue d) rfl).trans hv'
  refine ⟨_, _, v, (step_cons hq).trans ht', hsecond, ?_, rfl, ⟨rfl, rfl, rfl, rfl, rfl, rfl⟩, rfl⟩
  simp only [issueAll, ht, hv, andThen_next]

end Sys2Proof.Machine

namespace Sys2Proof

/-! ### The decoder's laws -/

/-- A command word is its upper and its lower half (R71, R74). -/
theorem word_eq_append_iff (w : Word) (u : BitVec 16) (n : Len) :
    w = u ++ n ↔ w.extractLsb' 16 16 = u ∧ n = w.extractLsb' 0 16 := by
  constructor
  · rintro rfl
    exact ⟨BitVec.extractLsb'_append_eq_left, BitVec.extractLsb'_append_eq_right.symm⟩
  · rintro ⟨rfl, rfl⟩
    apply BitVec.eq_of_getLsbD_eq
    intro i hi
    rw [BitVec.getLsbD_append]
    by_cases h : i < 16
    · simp [h]
    · simp [h, show i - 16 < 16 by omega, show 16 + (i - 16) = i by omega]

/-- The fields of R71 make up the word. -/
theorem word_eq_fields (w : Word) : w = opField w ++ rsvField w ++ nField w := by
  refine (word_eq_append_iff w _ _).2 ⟨?_, rfl⟩
  apply BitVec.eq_of_getLsbD_eq
  intro i hi
  rw [BitVec.getLsbD_append, opField, rsvField]
  by_cases h : i < 12
  · simp [h, hi]
  · simp [h, hi, show i - 12 < 4 by omega, show 28 + (i - 12) = 16 + i by omega]

/-- R73: the operation OP selects has that OP, and N as its operand where it takes one. -/
theorem selectOp_eq_some {op : BitVec 4} {n : Len} {i : Instr} (h : selectOp op n = some i) :
    op = opCode i ∧ (op ≠ 1 → n = countField i) := by
  unfold selectOp at h
  split_ifs at h with h1 h2 h3 h4 h5 h6 <;> cases h
  · exact ⟨h1, fun hne => absurd h1 hne⟩
  · exact ⟨h2, fun _ => rfl⟩
  · exact ⟨h3, fun _ => rfl⟩
  · exact ⟨h4, fun _ => rfl⟩
  · exact ⟨h5, fun _ => rfl⟩
  · exact ⟨h6, fun _ => rfl⟩

/-- R76: a word that decodes passed all three checks of the decoder. -/
theorem decodeWord_ok_checks {w : Word} {i : Instr} (h : decodeWord w = .ok i) :
    selectOp (opField w) (nField w) = some i ∧ rsvField w = 0 ∧ (opField w = 1 → nField w = 0) := by
  unfold decodeWord at h
  split at h
  · cases h
  · next j hsel =>
    split_ifs at h with hrsv hpack
    cases h
    exact ⟨hsel, not_not.1 hrsv, fun hop => not_not.1 fun hn => hpack ⟨hop, hn⟩⟩

/-- R71, R73: a word decodes to an instruction exactly when it is its encoding. -/
theorem decodeWord_eq_ok_iff {w : Word} {i : Instr} : decodeWord w = .ok i ↔ w = encode i := by
  constructor
  · intro h
    obtain ⟨hsel, hrsv, hpack⟩ := decodeWord_ok_checks h
    obtain ⟨hop, hcount⟩ := selectOp_eq_some hsel
    have hn : nField w = countField i := by
      by_cases h1 : opField w = 1
      · cases i with
        | pack => exact hpack h1
        | _ => cases hop.symm.trans h1
      · exact hcount h1
    rw [word_eq_fields w, hop, hrsv, hn, encode]
  · rintro rfl
    exact Machine.decodeWord_encode i

/-- The upper half of an encoded word is OP and RSV = 0, and its lower half is N. -/
theorem eq_encode_iff {w : Word} {i : Instr} :
    w = encode i ↔ w.extractLsb' 16 16 = opCode i ++ (0 : BitVec 12) ∧ countField i = w.extractLsb' 0 16 :=
  word_eq_append_iff w _ _

/-- R78: the encoding is `OP << 28 | N`. -/
theorem encode_eq_shift (i : Instr) :
    encode i = ((opCode i).setWidth 32 <<< 28) ||| (countField i).setWidth 32 := by
  apply BitVec.eq_of_getLsbD_eq
  intro k hk
  simp only [encode, BitVec.getLsbD_append, BitVec.getLsbD_or, BitVec.getLsbD_shiftLeft, BitVec.getLsbD_setWidth]
  by_cases h16 : k < 16
  · simp [h16, hk, show k < 28 by omega]
  · have hn : (countField i).getLsbD k = false := BitVec.getLsbD_of_ge _ _ (Nat.not_lt.1 h16)
    by_cases h28 : k < 28
    · simp [h16, h28, hk, hn, show k - 16 < 12 by omega]
    · simp [h16, h28, hk, hn, show ¬ k - 16 < 12 by omega, show k - 16 - 12 = k - 28 by omega,
        show k - 28 < 32 by omega]

/-- R73: the six assigned values of OP. -/
theorem assigned_op_cases : ∀ {op : BitVec 4}, 1 ≤ op.toNat ∧ op.toNat ≤ 6 →
    op = 1 ∨ op = 2 ∨ op = 3 ∨ op = 4 ∨ op = 5 ∨ op = 6 := by decide

/-- R73, R74: an assigned OP and an N that is 0 for PACK select an instruction. -/
theorem exists_instr_of_fields {op : BitVec 4} {n : Len} (hop : 1 ≤ op.toNat ∧ op.toNat ≤ 6)
    (hn : op = 1 → n = 0) : ∃ i, opCode i = op ∧ countField i = n := by
  obtain rfl | rfl | rfl | rfl | rfl | rfl := assigned_op_cases hop
  · exact ⟨.pack, rfl, (hn rfl).symm⟩
  · exact ⟨.unpack n, rfl, rfl⟩
  · exact ⟨.rbBind n, rfl, rfl⟩
  · exact ⟨.rbRead n, rfl, rfl⟩
  · exact ⟨.wbInit n, rfl, rfl⟩
  · exact ⟨.wbWrite n, rfl, rfl⟩

/-! ### When a command is legal -/

/-- R71: the fields of a word that decodes. -/
theorem decodeWord_ok_fields {w : Word} {i : Instr} (h : decodeWord w = .ok i) :
    w.extractLsb' 28 4 = opCode i ∧ w.extractLsb' 16 12 = 0 ∧ w.extractLsb' 0 16 = countField i := by
  rw [decodeWord_eq_ok_iff.1 h]
  exact commandFields (opCode i) (countField i)

/-- R73: the `need` of R76 is the payload length the decoded operation requires. -/
theorem Command.need_eq {c : Command} {i : Instr} (h : decodeWord c.word = .ok i) : c.need = i.payloadNeed := by
  obtain ⟨hop, -, hn⟩ := decodeWord_ok_fields h
  rw [Command.need, hop, hn]
  cases i <;> rfl

/-- R75: a command is legal exactly when its word decodes and its payload has the length the operation requires. -/
theorem Command.legal_iff {c : Command} : c.legal ↔ ∃ i, decodeWord c.word = .ok i ∧ i.wellFormed c.payload := by
  constructor
  · rintro ⟨hop, hrsv, hpack, hfits⟩
    obtain ⟨i, hi, hn⟩ := exists_instr_of_fields hop hpack
    have hd : decodeWord c.word = .ok i := decodeWord_eq_ok_iff.2 <| by
      rw [encode, hi, hn, ← show rsvField c.word = 0 from hrsv]
      exact word_eq_fields c.word
    exact ⟨i, hd, hfits.trans (need_eq hd)⟩
  · rintro ⟨i, hd, hp⟩
    obtain ⟨hop, hrsv, hn⟩ := decodeWord_ok_fields hd
    refine ⟨?_, hrsv, ?_, hp.trans (need_eq hd).symm⟩
    · rw [Command.opAssigned, hop]
      cases i <;> simp [opCode]
    · rw [Command.packCountZero, hop, hn]
      cases i with
      | pack => exact fun _ => rfl
      | _ => exact fun h => absurd h (by simp [opCode])

end Sys2Proof

namespace Sys2Proof.Machine

/-- R75: a step that issues an illegal command answers the bare ILLEGAL_COMMAND. -/
theorem step_illegal {s : State} {c : Command} {rest : List HostAction} (hq : s.pending = .issue c :: rest)
    (h : ¬ c.legal) :
    step s = .next ((s.issued c rest).reply (.response { status := .illegalCommand })) := by
  cases hd : decodeWord c.word with
  | error e => exact step_issue_error hq hd
  | ok i => exact (step_issue_ok hq hd).trans (exec_illegal fun hp => h (Command.legal_iff.2 ⟨i, hd, hp⟩))

/-- R75: an instruction whose payload has the right length does not answer ILLEGAL_COMMAND. -/
theorem Answers.status_ne_illegal {i : Instr} {s : State} {r : Response} {f : State → State} (h : Answers s i r f)
    (hp : i.wellFormed s.port.payload) : r.status ≠ .illegalCommand := by
  cases h with
  | illegal hp' => exact absurd hp hp'
  | _ => exact nofun

/-! ### The step and the spec's Exec -/

/-- The last case of R76's `Exec`: what a legal command does by the spec's pseudocode (R101, R103, R130 to R133). -/
def specMeaning (i : Instr) (c : Command) (b : Block) : Response × Block :=
  match i with
  | .pack => ({ status := .ok, data := some (packHeader c.hIn) }, b)
  | .unpack n => specUnpack n.toNat c.payload b
  | .rbBind n => specRbBind n.toNat c.payload b
  | .rbRead n => specRbRead n.toNat b
  | .wbInit n => specWbInit n.toNat b
  | .wbWrite n => specWbWrite n.toNat c.payload b

/-- R76: the spec's checks let a legal command through to its operation's pseudocode. -/
theorem specExec_legal {c : Command} {i : Instr} (hd : decodeWord c.word = .ok i) (hp : i.wellFormed c.payload)
    (b : Block) : specExec c b = specMeaning i c b := by
  obtain ⟨hop, hrsv, hn⟩ := decodeWord_ok_fields hd
  rw [Instr.wellFormed] at hp
  cases i <;> simp [specExec, specMeaning, hop, hrsv, hn, hp, opCode, countField, Instr.payloadNeed]

/-- R76: the spec's checks stop an illegal command, each of the four conditions of R75 by its own check. -/
theorem specExec_illegal {c : Command} (h : ¬ c.legal) (b : Block) : specExec c b = specRaise .illegalCommand b := by
  have hneed : c.need = if (c.word.extractLsb' 28 4).toNat = 2 ∨ (c.word.extractLsb' 28 4).toNat = 3 ∨
      (c.word.extractLsb' 28 4).toNat = 6 then (c.word.extractLsb' 0 16).toNat else 0 := by
    simp [Command.need, ← BitVec.toNat_inj]
  simp only [specExec, ← hneed]
  by_cases hop : c.opAssigned
  swap
  · exact if_pos hop
  refine (if_neg (not_not.2 hop)).trans ?_
  by_cases hrsv : c.rsvZero
  swap
  · exact if_pos fun h0 => hrsv (BitVec.eq_of_toNat_eq h0)
  refine (if_neg (not_not.2 (congrArg BitVec.toNat hrsv))).trans ?_
  by_cases hpack : c.packCountZero
  swap
  · obtain ⟨h1, hn⟩ := Classical.not_imp.1 hpack
    exact if_pos ⟨congrArg BitVec.toNat h1, fun h0 => hn (BitVec.eq_of_toNat_eq h0)⟩
  refine (if_neg fun hp => hp.2 (congrArg BitVec.toNat (hpack (BitVec.eq_of_toNat_eq hp.1)))).trans ?_
  exact if_pos fun hfits => h ⟨hop, hrsv, hpack, hfits⟩

/-! ### A region as the spec's byte array -/

/-- A part of a region's reading is the region's reading there. -/
theorem Memory.take_drop_readBytes (m : Memory) (a : Nat) {cur n len : Nat} (h : cur + n ≤ len) :
    ((m.readBytes a len).drop cur).take n = m.readBytes (a + cur) n :=
  List.ext_getElem (by simp; omega) fun k h1 h2 => by
    simp [Memory.getElem_readBytes, Nat.add_assoc]

/-- The reading of a region after a write within it is the old reading with the bytes in their place (R54). -/
theorem Memory.readBytes_writeBytes_splice {m : Memory} (hm : m.wf) (v : List Byte) {cur len : Nat}
    (h : cur + v.length ≤ len) :
    (m.writeBytes cur v).readBytes 0 len =
      (m.readBytes 0 len).take cur ++ v ++ (m.readBytes 0 len).drop (cur + v.length) := by
  obtain ⟨k, rfl⟩ := Nat.exists_eq_add_of_le h
  have hbefore : (m.writeBytes cur v).readBytes 0 cur = m.readBytes 0 cur :=
    Memory.readBytes_congr fun i _ hi => Memory.read_writeBytes_outside m cur v i (.inl (by omega))
  have hafter : (m.writeBytes cur v).readBytes (cur + v.length) k = m.readBytes (cur + v.length) k :=
    Memory.readBytes_congr fun i hi _ => Memory.read_writeBytes_outside m cur v i (.inr hi)
  have htake : (m.readBytes 0 (cur + v.length + k)).take cur = m.readBytes 0 cur := by
    rw [Nat.add_assoc, Memory.readBytes_append, List.take_left' (by simp)]
  have hdrop : (m.readBytes 0 (cur + v.length + k)).drop (cur + v.length) = m.readBytes (cur + v.length) k := by
    rw [Memory.readBytes_append, List.drop_left' (by simp), Nat.zero_add]
  rw [htake, hdrop, Memory.readBytes_append, Memory.readBytes_append, Nat.zero_add, Nat.zero_add, hbefore, hafter,
    Memory.readBytes_writeBytes hm]

/-- UNPACK uses no byte past index 11 (R103). -/
theorem unpackHeader_take (b : List Byte) : unpackHeader (b.take 12) = unpackHeader b := by
  simp [unpackHeader, byteAt_take]

/-- R76: on a state that meets the invariant, a legal command's answer is what the spec's pseudocode gives. -/
theorem Answers.refines_specMeaning {i : Instr} {s : State} {r : Response} {f : State → State} (h : Answers s i r f)
    (hs : s.Inv) (hlegal : i.wellFormed s.port.payload) : specMeaning i s.port s.block = (r, (f s).block) := by
  cases h with
  | illegal hp => exact absurd hlegal hp
  | packed hp => rfl
  | unpacked hp hn =>
    rw [unpackHeader_take]
    exact if_neg (Nat.not_lt.2 hn)
  | truncated hp hn => exact if_pos hn
  | @bound n hp =>
    have hmem : (Memory.ofBytes 0 s.port.payload).readBytes 0 n.toNat = s.port.payload := by
      rw [← show s.port.payload.length = n.toNat from hp, Memory.readBytes_ofBytes]
    simp [specMeaning, specRbBind, State.block, readRegionBytes, writeRegionBytes, hmem]
  | @read n hp hn =>
    refine (if_neg (Nat.not_lt.2 hn)).trans ?_
    have hdata : (s.block.rbMem.drop s.block.rbCur).take n.toNat = s.rbMem.readBytes (0 + s.rbCur.toNat) n.toNat :=
      Memory.take_drop_readBytes s.rbMem 0 hn
    rw [hdata, Nat.zero_add]
    simp [State.block, readRegionBytes, writeRegionBytes, advance_toNat hn]
  | readPastEnd hp hn => exact if_pos hn
  | @initialised n hp =>
    simp [specMeaning, specWbInit, State.block, readRegionBytes, writeRegionBytes, Memory.readBytes_empty]
  | @written n hp hn =>
    refine (if_neg (Nat.not_lt.2 hn)).trans ?_
    have hlen : s.port.payload.length = n.toNat := hp
    have hmem := Memory.readBytes_writeBytes_splice hs.wbWf s.port.payload (hlen.symm ▸ hn)
    rw [hlen] at hmem
    simp [State.block, readRegionBytes, writeRegionBytes, advance_toNat hn, hmem]
  | writePastEnd hp hn => exact if_pos hn

/-! ### The codec's round trip -/

/-- The fields of a header come back from its bytes, the two 4-bit ones masked (R106). -/
theorem unpackHeader_packHeader (h : HIn) : unpackHeader (packHeader h) = headerOf h := by
  obtain ⟨hqr, hop, haa, htc, hrd⟩ := flagByte2_fields h.qr (low4 h.opcodeIn) h.aa h.tc h.rd
  obtain ⟨hra, hrc⟩ := flagByte3_fields h.ra (low4 h.rcodeIn)
  simp [unpackHeader, packHeader, headerOf, byteAt, join16_highByte_lowByte, hqr, hop, haa, htc, hrd, hra, hrc]

/-! ### Sequences of commands -/

/-- A command that only answers leaves the block as it was. -/
theorem State.sameBlock_response (c : Command) (r : HostReply) (s : State) :
    s.sameBlock ((s.setPort c).reply r) := ⟨rfl, rfl, rfl, rfl, rfl, rfl⟩

theorem State.sameBlock.trans {s t u : State} (hst : s.sameBlock t) (htu : t.sameBlock u) : s.sameBlock u := by
  obtain ⟨hrm, hrl, hrc, hwm, hwl, hwc⟩ := htu
  rw [State.sameBlock, hrm, hrl, hrc, hwm, hwl, hwc]
  exact hst

theorem State.afterWrite_wbMem (p : List Byte) (s : State) :
    (s.afterWrite p).wbMem = s.wbMem.writeBytes s.wbCur.toNat p := rfl

theorem State.lastStatus_afterWrite (p : List Byte) (s : State) : lastStatus (s.afterWrite p) = some .ok := rfl

@[simp] theorem State.afterInit_wbMem (n : Len) (s : State) : (s.afterInit n).wbMem = [] := rfl

@[simp] theorem State.afterInit_wbCap (n : Len) (s : State) : (s.afterInit n).wbCap = n := rfl

@[simp] theorem State.afterInit_wbCur (n : Len) (s : State) : (s.afterInit n).wbCur = 0 := rfl

/-- The state after a PACK without a payload (R101). -/
def State.afterPack (h : HIn) (s : State) : State :=
  (s.setPort (encodeCommand .pack h [])).reply (.response { status := .ok, data := some (packHeader h) })

/-- PACK without a payload succeeds. -/
theorem issueCommand_pack (h : HIn) (s : State) :
    issueCommand (encodeCommand .pack h []) s = .next (s.afterPack h) := by
  rw [issueCommand_encodeCommand]
  exact exec_of_answers (.packed rfl)

theorem State.sameBlock_afterPack (h : HIn) (s : State) : s.sameBlock (s.afterPack h) :=
  State.sameBlock_response _ _ s

/-- PACK.WB is a WB.WRITE of the packed header, once PACK has answered (R79). -/
theorem packWb_eq (h : HIn) (s : State) :
    packWb h s = issueCommand (writeCommand (packHeader h)) (s.afterPack h) := by
  rw [packWb, issueCommand_pack]
  rfl

/-- A WB.WRITE that does not fit is out of bounds (R133). -/
theorem issueCommand_writeCommand_outOfBounds {p : List Byte} {s : State} {n : Len} (hp : p.length ≤ n.toNat)
    (h : s.wbCap.toNat < s.wbCur.toNat + p.length) :
    issueCommand (writeCommand p) s =
      .next ((s.setPort (writeCommand p)).reply (.response { status := .outOfBounds })) := by
  have hlen := toNat_ofNat_length hp
  rw [writeCommand, issueCommand_encodeCommand]
  exact exec_of_answers (.writePastEnd hlen.symm (hlen.symm ▸ h))

/-- The state after a successful PACK.WB (R79). -/
def State.afterPackWb (h : HIn) (s : State) : State := (s.afterPack h).afterWrite (packHeader h)

@[simp] theorem State.afterPackWb_wbMem (h : HIn) (s : State) :
    (s.afterPackWb h).wbMem = s.wbMem.writeBytes s.wbCur.toNat (packHeader h) :=
  State.afterWrite_wbMem (packHeader h) (s.afterPack h)

@[simp] theorem State.afterPackWb_wbCur (h : HIn) (s : State) : (s.afterPackWb h).wbCur = advance s.wbCur 12 := by
  change advance s.wbCur (BitVec.ofNat 16 (packHeader h).length) = _
  rw [length_packHeader]
  rfl

/-- PACK.WB with 12 bytes of capacity left succeeds. -/
theorem packWb_of_fits {s : State} (h : HIn) (hfit : s.wbCur.toNat + 12 ≤ s.wbCap.toNat) :
    packWb h s = .next (s.afterPackWb h) := by
  rw [packWb_eq]
  refine issueCommand_writeCommand ?_
  obtain ⟨-, -, -, -, hcap, hcur⟩ := s.sameBlock_afterPack h
  rwa [hcap, hcur, length_packHeader]

/-- PACK.WB with fewer than 12 bytes of capacity left is out of bounds. -/
theorem packWb_outOfBounds {s : State} (h : HIn) (hpast : s.wbCap.toNat < s.wbCur.toNat + 12) :
    packWb h s = .next (((s.afterPack h).setPort (writeCommand (packHeader h))).reply
      (.response { status := .outOfBounds })) := by
  rw [packWb_eq]
  refine issueCommand_writeCommand_outOfBounds (n := 12) (Nat.le_refl 12) ?_
  obtain ⟨-, -, -, -, hcap, hcur⟩ := s.sameBlock_afterPack h
  rwa [hcap, hcur, length_packHeader]

/-- The state after a successful RB.READ (R131). -/
def State.afterRead (n : Len) (s : State) : State :=
  ((s.setPort (encodeCommand (.rbRead n) {} [])).setReadCursor (advance s.rbCur n)).reply
    (.response { status := .ok, data := some (s.rbMem.readBytes s.rbCur.toNat n.toNat) })

/-- An RB.READ within the region succeeds. -/
theorem issueCommand_rbRead {n : Len} {s : State} (h : s.rbCur.toNat + n.toNat ≤ s.rbLen.toNat) :
    issueCommand (encodeCommand (.rbRead n) {} []) s = .next (s.afterRead n) := by
  rw [issueCommand_encodeCommand]
  exact exec_of_answers (.read rfl h)

/-- An RB.READ past the region's end is out of bounds. -/
theorem issueCommand_rbRead_outOfBounds {n : Len} {s : State} (h : s.rbLen.toNat < s.rbCur.toNat + n.toNat) :
    issueCommand (encodeCommand (.rbRead n) {} []) s =
      .next ((s.setPort (encodeCommand (.rbRead n) {} [])).reply (.response { status := .outOfBounds })) := by
  rw [issueCommand_encodeCommand]
  exact exec_of_answers (s := s.setPort (encodeCommand (.rbRead n) {} [])) (.readPastEnd rfl h)

/-- The state after a successful RB.UNPACK (R79). -/
def State.afterRbUnpack (s : State) : State :=
  ((s.afterRead 12).setPort (encodeCommand (.unpack 12) {} (s.rbMem.readBytes s.rbCur.toNat 12))).reply
    (.response { status := .ok, hdr := some (unpackHeader (s.rbMem.readBytes s.rbCur.toNat 12)), count := some 12 })

theorem State.afterRbUnpack_cursors (s : State) :
    s.afterRbUnpack.rbCur = advance s.rbCur 12 ∧ s.afterRbUnpack.wbCur = s.wbCur := by
  obtain ⟨-, -, hrc, -, -, hwc⟩ : (s.afterRead 12).sameBlock s.afterRbUnpack := State.sameBlock_response _ _ _
  exact ⟨hrc, hwc⟩

theorem State.lastResponse_afterRbUnpack (s : State) : lastResponse s.afterRbUnpack = some
    { status := .ok, hdr := some (unpackHeader (s.rbMem.readBytes s.rbCur.toNat 12)), count := some 12 } := rfl

/-- RB.UNPACK with 12 bytes left in the region reads and unpacks them. -/
theorem rbUnpack_eq {s : State} (h : s.rbCur.toNat + 12 ≤ s.rbLen.toNat) :
    rbUnpack s = .next s.afterRbUnpack := by
  have hunpack := (issueCommand_encodeCommand (.unpack 12) {} (s.rbMem.readBytes s.rbCur.toNat 12)
    (s.afterRead 12)).trans (exec_of_answers (.unpacked (Memory.length_readBytes _ _ _) (Nat.le_refl 12)))
  rw [unpackHeader_take] at hunpack
  rw [rbUnpack, issueCommand_rbRead (n := 12) h]
  exact hunpack

/-- RB.UNPACK with fewer than 12 bytes left ends after its RB.READ. -/
theorem rbUnpack_outOfBounds {s : State} (h : s.rbLen.toNat < s.rbCur.toNat + 12) :
    rbUnpack s =
      .next ((s.setPort (encodeCommand (.rbRead 12) {} [])).reply (.response { status := .outOfBounds })) := by
  rw [rbUnpack, issueCommand_rbRead_outOfBounds (n := 12) h]
  rfl

/-- The state after a successful RB.BIND (R130). -/
def State.afterBind (n : Len) (p : List Byte) (s : State) : State :=
  ((s.setPort (encodeCommand (.rbBind n) {} p)).bindRead (Memory.ofBytes 0 p) n).reply (.response { status := .ok })

@[simp] theorem State.afterBind_rbMem (n : Len) (p : List Byte) (s : State) :
    (s.afterBind n p).rbMem = Memory.ofBytes 0 p := rfl

@[simp] theorem State.afterBind_rbCur (n : Len) (p : List Byte) (s : State) : (s.afterBind n p).rbCur = 0 := rfl

@[simp] theorem State.afterBind_rbLen (n : Len) (p : List Byte) (s : State) : (s.afterBind n p).rbLen = n := rfl

@[simp] theorem State.afterBind_wbCur (n : Len) (p : List Byte) (s : State) : (s.afterBind n p).wbCur = s.wbCur := rfl

/-- RB.BIND of a payload of its length succeeds. -/
theorem issueCommand_rbBind {n : Len} {p : List Byte} (hp : p.length = n.toNat) (s : State) :
    issueCommand (encodeCommand (.rbBind n) {} p) s = .next (s.afterBind n p) := by
  rw [issueCommand_encodeCommand]
  exact exec_of_answers (.bound hp)

/-! ### The statements of the encoding's family -/

/-- Settles O4: the two directions of the decoder's law. -/
theorem encodingIsExact : Obligations.EncodingIsExact := fun i =>
  ⟨decodeWord_encode i, fun _ => decodeWord_eq_ok_iff.1⟩

/-- Settles O7: both sides run the same instruction on a legal command, and both answer an illegal one alike. -/
theorem stepRefinesSpecExec : Obligations.StepRefinesSpecExec := by
  intro s c rest hs hq
  by_cases hl : c.legal
  · obtain ⟨i, hd, hp⟩ := Command.legal_iff.1 hl
    obtain ⟨r, f, ha, hexec⟩ := exec_cases i (s.issued c rest)
    obtain ⟨hpending, -, hreplies⟩ := ha.host_frame
    have hissued : (s.issued c rest).Inv := hs.of_sameBlock ⟨rfl, rfl, rfl, rfl, rfl, rfl⟩
    have hspec : specExec c s.block = (r, (f (s.issued c rest)).block) :=
      (specExec_legal hd hp s.block).trans (ha.refines_specMeaning hissued hp)
    rw [hspec]
    exact ⟨_, (step_issue_ok hq hd).trans hexec, hpending, congrArg (_ :: ·) hreplies, rfl⟩
  · rw [specExec_illegal hl]
    exact ⟨_, step_illegal hq hl, rfl, rfl, rfl⟩

/-- Settles O54: the header is written at offset 0 of an empty region, and its twelve bytes are what RB.BIND copies. -/
theorem headerLoopback : Obligations.HeaderLoopback := by
  intro s h
  have hadvance : advance 0 12 = 12 := by decide
  have hpack : packWb h (s.afterInit 12) = .next ((s.afterInit 12).afterPackWb h) :=
    packWb_of_fits h (by rw [State.afterInit_wbCur, State.afterInit_wbCap]; decide)
  have hout : outgoingMessage ((s.afterInit 12).afterPackWb h) = packHeader h := by
    simp only [outgoingMessage, State.afterPackWb_wbMem, State.afterPackWb_wbCur, State.afterInit_wbMem,
      State.afterInit_wbCur]
    exact Memory.readBytes_writeBytes Memory.wf_nil 0 (packHeader h)
  have hcur : ((s.afterInit 12).afterPackWb h).wbCur = 12 := by
    rw [State.afterPackWb_wbCur, State.afterInit_wbCur, hadvance]
  generalize (s.afterInit 12).afterPackWb h = b at hpack hout hcur
  have hunpack : rbUnpack (b.afterBind 12 (packHeader h)) = .next (b.afterBind 12 (packHeader h)).afterRbUnpack :=
    rbUnpack_eq (by rw [State.afterBind_rbCur, State.afterBind_rbLen]; decide)
  have hread : (Memory.ofBytes 0 (packHeader h)).readBytes (0 : Len).toNat 12 = packHeader h :=
    Memory.readBytes_ofBytes (packHeader h)
  obtain ⟨hrbCur, hwbCur⟩ := (b.afterBind 12 (packHeader h)).afterRbUnpack_cursors
  refine ⟨_, _, _, _, issueCommand_wbInit 12 s, hpack, ?_, hunpack, ?_, ?_, hwbCur.trans hcur⟩
  · rw [hout]
    exact issueCommand_rbBind rfl b
  · rw [State.lastResponse_afterRbUnpack, State.afterBind_rbMem, State.afterBind_rbCur, hread, unpackHeader_packHeader]
  · rw [hrbCur, State.afterBind_rbCur, hadvance]

/-- Settles O3: the word of each operation is its encoding, taken apart into its two halves. -/
theorem decodeSelectsByTable : Obligations.DecodeSelectsByTable := by
  intro w
  have halves : ∀ {i : Instr} {op : BitVec 4} {u : BitVec 16}, opCode i = op → op ++ (0 : BitVec 12) = u →
      (decodeWord w = .ok i ↔ w.extractLsb' 16 16 = u ∧ countField i = w.extractLsb' 0 16) := by
    rintro i op u rfl rfl
    exact decodeWord_eq_ok_iff.trans eq_encode_iff
  refine ⟨decodeWord_eq_ok_iff, fun n => halves (op := 2) rfl (by decide), fun n => halves (op := 3) rfl (by decide),
    fun n => halves (op := 4) rfl (by decide), fun n => halves (op := 5) rfl (by decide),
    fun n => halves (op := 6) rfl (by decide), fun hpack hupper => ?_⟩
  cases hd : decodeWord w with
  | error e => exact ⟨e, rfl⟩
  | ok i =>
    have hu := ((halves rfl rfl).1 hd).1
    cases i with
    | pack => exact absurd (decodeWord_eq_ok_iff.1 hd) hpack
    | _ => exact absurd (by rw [hu]; simp [opCode]) hupper

/-- Settles O5: a legal command runs an instruction whose payload has the right length. -/
theorem illegalCommandsAnswered : Obligations.IllegalCommandsAnswered := by
  intro s c rest hq
  refine ⟨step_illegal hq, fun hl => ?_⟩
  obtain ⟨i, hd, hp⟩ := Command.legal_iff.1 hl
  obtain ⟨r, f, ha, hexec⟩ := exec_cases i (s.issued c rest)
  refine ⟨_, (step_issue_ok hq hd).trans hexec, ?_⟩
  rw [lastStatus_reply]
  exact fun hr => ha.status_ne_illegal hp (Option.some.inj hr)

/-- Settles O8: every line issues its encoded instruction, whose word is `OP << 28 | N`. -/
theorem assemblerWords : Obligations.AssemblerWords := by
  intro s h n w p
  have hword : ∀ (i : Instr) (p : List Byte), issueCommand (encodeCommand i {} p) s =
      issueCommand ⟨((opCode i).setWidth 32 <<< 28) ||| (countField i).setWidth 32, {}, p⟩ s := fun i p => by
    rw [encodeCommand, encode_eq_shift]
  exact ⟨rfl, hword (.unpack n) p, hword (.rbBind n) p, hword (.rbRead n) [], hword (.wbInit n) [],
    hword (.wbWrite n) p, rfl⟩

/-- Settles O53: each pseudo-instruction by the outcome of the command that accesses a region. -/
theorem pseudoInstructions : Obligations.PseudoInstructions := by
  intro s h n
  refine ⟨fun hfit => ?_, fun hpast => ?_, fun hfit => ?_,
    fun hpast => ⟨_, rbUnpack_outOfBounds hpast, rfl, rfl⟩,
    fun hfit => ⟨_, issueCommand_rbRead hfit, rfl, advance_toNat hfit⟩,
    fun hpast => ⟨_, issueCommand_rbRead_outOfBounds hpast, rfl, State.sameBlock_response _ _ s⟩⟩
  · refine ⟨_, packWb_of_fits h hfit, State.lastStatus_afterWrite _ _, State.afterPackWb_wbMem h s, ?_⟩
    rw [State.afterPackWb_wbCur]
    exact advance_toNat (n := 12) hfit
  · refine ⟨_, packWb_outOfBounds h hpast, ?_, ?_⟩
    · rw [lastStatus_reply]
    · exact (s.sameBlock_afterPack h).trans (State.sameBlock_response _ _ _)
  · refine ⟨_, rbUnpack_eq hfit, s.lastResponse_afterRbUnpack, ?_⟩
    rw [s.afterRbUnpack_cursors.1]
    exact advance_toNat (n := 12) hfit

/-- Settles O1: the decoder's answer selects the instruction that the step runs. -/
theorem stepRunsDecodedInstruction : Obligations.StepRunsDecodedInstruction := fun _ _ _ _ hq hd =>
  step_issue_ok hq hd

/-- Settles O2: the first six words are encodings, and each of the others fails one check of the decoder. -/
theorem specWordsDecode : Obligations.SpecWordsDecode :=
  ⟨decodeWord_encode .pack, decodeWord_encode (.unpack 12), decodeWord_encode (.rbBind 14),
    decodeWord_encode (.rbRead 65535), decodeWord_encode (.wbInit 16), decodeWord_encode (.wbWrite 2),
    by decide, by decide, by decide, by decide, by decide, by decide⟩

end Sys2Proof.Machine

namespace Sys2Proof.Machine

/-! ### The wire's bits -/

theorem getLsbD_highByte (v : Len) : ∀ i < 8, (highByte v).getLsbD i = v.getLsbD (8 + i) := fun i hi => by
  simp [highByte, hi]

theorem getLsbD_lowByte (v : Len) : ∀ i < 8, (lowByte v).getLsbD i = v.getLsbD i := fun i hi => by
  simp [lowByte, hi]

theorem getLsbD_low4 (v : BitVec 8) : ∀ i < 4, (low4 v).getLsbD i = v.getLsbD i := fun i hi => by
  simp [low4, hi]

/-- Bits 8 and up of a joined field are the first byte's, read off from splitting the field again. -/
theorem getLsbD_join16_high (a b : Byte) : ∀ i < 8, (join16 a b).getLsbD (8 + i) = a.getLsbD i := fun i hi => by
  rw [← getLsbD_highByte _ i hi, highByte_join16]

theorem getLsbD_join16_low (a b : Byte) : ∀ i < 8, (join16 a b).getLsbD i = b.getLsbD i := fun i hi => by
  rw [← getLsbD_lowByte _ i hi, lowByte_join16]

theorem getLsbD_bitAt (b : Byte) (k : Nat) : (bitAt b k).getLsbD 0 = b.getLsbD k := by
  simp [bitAt]

theorem getLsbD_opcodeBits (b : Byte) : ∀ i < 4, (opcodeBits b).getLsbD i = b.getLsbD (3 + i) := fun i hi => by
  simp [opcodeBits, hi]

theorem getLsbD_rcodeBits (b : Byte) : ∀ i < 4, (rcodeBits b).getLsbD i = b.getLsbD i := fun i hi => by
  simp [rcodeBits, hi]

/-- R100: the Z bits of a packed byte 3 are 0. -/
theorem getLsbD_flagByte3_z : ∀ (ra : Flag) (rc : Nibble), ∀ i < 3, (flagByte3 ra rc).getLsbD (4 + i) = false := by
  decide

/-- R100: the two flag bytes of a packed header, bit by bit. -/
theorem packHeader_flag_bits (h : HIn) :
    (byteAt (packHeader h) 2).getLsbD 7 = h.qr.getLsbD 0 ∧
    (∀ i < 4, (byteAt (packHeader h) 2).getLsbD (3 + i) = h.opcodeIn.getLsbD i) ∧
    (byteAt (packHeader h) 2).getLsbD 2 = h.aa.getLsbD 0 ∧
    (byteAt (packHeader h) 2).getLsbD 1 = h.tc.getLsbD 0 ∧
    (byteAt (packHeader h) 2).getLsbD 0 = h.rd.getLsbD 0 ∧
    (byteAt (packHeader h) 3).getLsbD 7 = h.ra.getLsbD 0 ∧
    (∀ i < 3, (byteAt (packHeader h) 3).getLsbD (4 + i) = false) ∧
    (∀ i < 4, (byteAt (packHeader h) 3).getLsbD i = h.rcodeIn.getLsbD i) := by
  have h2 : byteAt (packHeader h) 2 = flagByte2 h.qr (low4 h.opcodeIn) h.aa h.tc h.rd := rfl
  have h3 : byteAt (packHeader h) 3 = flagByte3 h.ra (low4 h.rcodeIn) := rfl
  obtain ⟨hqr, hop, haa, htc, hrd⟩ := flagByte2_fields h.qr (low4 h.opcodeIn) h.aa h.tc h.rd
  obtain ⟨hra, hrc⟩ := flagByte3_fields h.ra (low4 h.rcodeIn)
  rw [← h2] at hqr hop haa htc hrd
  rw [← h3] at hra hrc
  refine ⟨?_, fun i hi => ?_, ?_, ?_, ?_, ?_, getLsbD_flagByte3_z h.ra (low4 h.rcodeIn), fun i hi => ?_⟩
  · rw [← getLsbD_bitAt, hqr]
  · rw [← getLsbD_opcodeBits _ i hi, hop, getLsbD_low4 _ i hi]
  · rw [← getLsbD_bitAt, haa]
  · rw [← getLsbD_bitAt, htc]
  · rw [← getLsbD_bitAt, hrd]
  · rw [← getLsbD_bitAt, hra]
  · rw [← getLsbD_rcodeBits _ i hi, hrc, getLsbD_low4 _ i hi]

/-! ### What the codec's functions do not see -/

/-- R102: bits [3:0] are all that masking keeps. -/
theorem low4_congr {v w : BitVec 8} (h : ∀ i < 4, v.getLsbD i = w.getLsbD i) : low4 v = low4 w :=
  BitVec.eq_of_getLsbD_eq fun i hi => by rw [getLsbD_low4 v i hi, getLsbD_low4 w i hi, h i hi]

/-- R103, R105: the fields of byte 3 stand outside its Z bits. -/
theorem byte3_fields_clearZ : ∀ b : Byte,
    bitAt (b &&& 0x8F) 7 = bitAt b 7 ∧ rcodeBits (b &&& 0x8F) = rcodeBits b := by decide

/-- R105: byte 3 survives clearing its Z bits exactly when they were 000. -/
theorem clearZ_eq_self_iff : ∀ b : Byte, b &&& 0x8F = b ↔ b.extractLsb' 4 3 = 0 := by decide

/-- R103, R105: bytes 0 to 11, byte 3 without its Z bits, are all that UNPACK reads. -/
theorem unpackHeader_congr {b b' : List Byte} (h : ∀ k < 12, k ≠ 3 → byteAt b k = byteAt b' k)
    (h3 : byteAt b 3 &&& 0x8F = byteAt b' 3 &&& 0x8F) : unpackHeader b = unpackHeader b' := by
  obtain ⟨hra, hrc⟩ := byte3_fields_clearZ (byteAt b 3)
  obtain ⟨hra', hrc'⟩ := byte3_fields_clearZ (byteAt b' 3)
  have hra3 : bitAt (byteAt b 3) 7 = bitAt (byteAt b' 3) 7 := by rw [← hra, h3, hra']
  have hrc3 : rcodeBits (byteAt b 3) = rcodeBits (byteAt b' 3) := by rw [← hrc, h3, hrc']
  simp [unpackHeader, h, hra3, hrc3]

/-! ### The codec's reverse round trip -/

/-- R107: the bytes of a header come back from its fields, the Z bits cleared. -/
theorem packHeader_operandOf_unpackHeader {b : List Byte} (hb : b.length = 12) :
    packHeader (operandOf (unpackHeader b)) = b.set 3 (byteAt b 3 &&& 0x8F) := by
  match b, hb with
  | [b0, b1, b2, b3, b4, b5, b6, b7, b8, b9, b10, b11], _ =>
    simp [packHeader, operandOf, unpackHeader, byteAt, highByte_join16, lowByte_join16, low4_setWidth,
      flagByte2_of_fields, flagByte3_of_fields]

theorem byteAt_set_same {b : List Byte} {k : Nat} (hk : k < b.length) (v : Byte) : byteAt (b.set k v) k = v := by
  simp [byteAt, hk]

/-- R107: bytes come back unchanged from clearing the Z bits exactly when these were 000. -/
theorem set_clearZ_eq_self_iff {b : List Byte} (hb : 3 < b.length) :
    b.set 3 (byteAt b 3 &&& 0x8F) = b ↔ (byteAt b 3).extractLsb' 4 3 = 0 := by
  rw [← clearZ_eq_self_iff]
  constructor
  · intro h
    rw [← byteAt_set_same hb (byteAt b 3 &&& 0x8F), h]
  · intro h
    rw [h, byteAt_of_lt hb, List.set_getElem_self]

/-! ### What PACK and UNPACK answer -/

section

variable {s : State} {n : Len}

theorem exec_pack (hp : s.port.payload = []) :
    exec .pack s = .next (s.reply (.response { status := .ok, data := some (packHeader s.port.hIn) })) :=
  exec_of_answers (.packed (congrArg List.length hp))

theorem exec_unpack (hp : s.port.payload.length = n.toNat) (hn : 12 ≤ n.toNat) :
    exec (.unpack n) s = .next (s.reply (.response
      { status := .ok, hdr := some (unpackHeader s.port.payload), count := some 12 })) := by
  rw [← unpackHeader_take]
  exact exec_of_answers (.unpacked hp hn)

end

/-- The state after an UNPACK of 12 bytes (R103). -/
def State.afterUnpack (b : List Byte) (s : State) : State :=
  (s.setPort (encodeCommand (.unpack 12) {} b)).reply
    (.response { status := .ok, hdr := some (unpackHeader b), count := some 12 })

/-- UNPACK of 12 bytes succeeds. -/
theorem issueCommand_unpack {b : List Byte} (hb : b.length = 12) (s : State) :
    issueCommand (encodeCommand (.unpack 12) {} b) s = .next (s.afterUnpack b) := by
  rw [issueCommand_encodeCommand]
  exact exec_unpack (n := 12) hb (Nat.le_refl 12)

/-! ### The statements of the header codec's family -/

/-- Settles O15: PACK answers its operand's bytes, and their fields are the operand's, masked. -/
theorem headerRoundTrip : Obligations.HeaderRoundTrip := by
  intro h s
  have hunpack := issueCommand_unpack (length_packHeader h) (s.afterPack h)
  refine ⟨_, _, issueCommand_pack h s, hunpack, ?_⟩
  rw [State.afterUnpack, lastResponse_reply, unpackHeader_packHeader]
  rfl

/-- Settles O16: PACK of the fields read gives the bytes with Z cleared. -/
theorem headerReverseRoundTrip : Obligations.HeaderReverseRoundTrip := by
  intro b s hb
  have hbytes := packHeader_operandOf_unpackHeader hb
  refine ⟨_, _, unpackHeader b, _, issueCommand_unpack hb s, rfl, issueCommand_pack _ _, rfl, hbytes, ?_⟩
  rw [hbytes]
  exact set_clearZ_eq_self_iff (by omega)

/-- Settles O10: the three outcomes of UNPACK; the fields are the pseudocode's by definition. -/
theorem unpackResult : Obligations.UnpackResult := by
  intro n s b hb
  obtain rfl : b = byteAt s.port.payload := funext hb
  have hop : (0x2 : BitVec 4).setWidth 32 <<< 28 = (0x20000000 : Word) := by decide
  have hword : encode (.unpack n) = 0x20000000 ||| n.setWidth 32 := by
    rw [encode_eq_shift, opCode, hop, countField]
  exact ⟨hword, fun hp hn => exec_of_answers (.truncated hp hn), exec_unpack,
    fun hp => exec_illegal hp⟩

/-- Settles O11: each byte is a half of a 16-bit field or a flag byte, in both directions. -/
theorem wireLayoutBitByBit : Obligations.WireLayoutBitByBit := by
  refine ⟨fun _ => exec_pack, fun _ _ => exec_unpack, fun h => ?_, fun b => ?_⟩
  · obtain ⟨hqr, hop, haa, htc, hrd, hra, hz, hrc⟩ := packHeader_flag_bits h
    exact ⟨length_packHeader h, getLsbD_highByte h.id, getLsbD_lowByte h.id, hqr, hop, haa, htc, hrd, hra, hz, hrc,
      getLsbD_highByte h.qdcount, getLsbD_lowByte h.qdcount, getLsbD_highByte h.ancount, getLsbD_lowByte h.ancount,
      getLsbD_highByte h.nscount, getLsbD_lowByte h.nscount, getLsbD_highByte h.arcount, getLsbD_lowByte h.arcount⟩
  · exact ⟨getLsbD_join16_high _ _, getLsbD_join16_low _ _, getLsbD_bitAt _ 7, getLsbD_opcodeBits _,
      getLsbD_bitAt _ 2, getLsbD_bitAt _ 1, getLsbD_bitAt _ 0, getLsbD_bitAt _ 7, getLsbD_rcodeBits _,
      getLsbD_join16_high _ _, getLsbD_join16_low _ _, getLsbD_join16_high _ _, getLsbD_join16_low _ _,
      getLsbD_join16_high _ _, getLsbD_join16_low _ _, getLsbD_join16_high _ _, getLsbD_join16_low _ _⟩

/-- Settles O13: both inputs reach the bytes through their mask only. -/
theorem maskedInputsPackAlike : Obligations.MaskedInputsPackAlike := by
  refine ⟨fun h o r ho hr => ?_, by decide⟩
  simp only [packHeader, low4_congr ho, low4_congr hr]

/-- Settles O14: both answers carry the same header. -/
theorem unpackIgnoresTailAndZ : Obligations.UnpackIgnoresTailAndZ := by
  intro n n' s s' hp hp' hn hn' h h3
  refine ⟨_, exec_unpack hp hn, ?_, rfl⟩
  rw [unpackHeader_congr h h3]
  exact exec_unpack hp' hn'

/-- Settles O9: the two outcomes of PACK; the bytes are the pseudocode's by definition. -/
theorem packResult : Obligations.PackResult :=
  ⟨encode_eq_shift .pack, fun _ => ⟨exec_pack, fun hp => exec_illegal fun h0 => hp (List.length_eq_zero_iff.1 h0)⟩⟩

/-- Settles O12: the word decodes to PACK, whose empty payload is legal. -/
theorem packNeverFails : Obligations.PackNeverFails := fun _ h _ hq =>
  ⟨_, packHeader h, (step_issue_ok hq (decodeWord_encode .pack)).trans (exec_pack rfl), rfl, length_packHeader h⟩

/-- Settles O17: PACK answers the bytes of its operand, which are computed for each flag. -/
theorem oneFlagOneBit : Obligations.OneFlagOneBit := by
  intro s hp
  have hpack : ∀ {h : HIn} {d : List Byte}, packHeader h = d → s.port.hIn = h →
      exec .pack s = .next (s.reply (.response { status := .ok, data := some d })) := by
    rintro h d rfl rfl
    exact exec_pack hp
  exact ⟨hpack (by decide), hpack (by decide), hpack (by decide), hpack (by decide), hpack (by decide)⟩

end Sys2Proof.Machine

namespace Sys2Proof.Machine

/-! ### The words of the buffer commands -/

/-- R71, R78: a word is its operation's bits, joined with N. -/
theorem encode_eq_or {i : Instr} {op : BitVec 4} {w : Word} (hop : opCode i = op)
    (hw : op.setWidth 32 <<< 28 = w) : encode i = w ||| (countField i).setWidth 32 := by
  rw [encode_eq_shift, hop, hw]

/-! ### The two channels

A channel is a region with its length or capacity and its cursor (R24 to R26); the block is the two channels. -/

/-- Two states hold the same read channel. -/
def State.sameReadChannel (s t : State) : Prop := t.rbMem = s.rbMem ∧ t.rbLen = s.rbLen ∧ t.rbCur = s.rbCur

/-- Two states hold the same write channel. -/
def State.sameWriteChannel (s t : State) : Prop := t.wbMem = s.wbMem ∧ t.wbCap = s.wbCap ∧ t.wbCur = s.wbCur

/-- A fresh read region reads as the bytes it was made of (R130). -/
theorem readRegionBytes_bindRead {p : List Byte} {n : Len} (hp : p.length = n.toNat) (s : State) :
    readRegionBytes (s.bindRead (Memory.ofBytes 0 p) n) = p := by
  rw [readRegionBytes, State.bindRead_rbMem, State.bindRead_rbLen, ← hp, Memory.readBytes_ofBytes]

/-- A fresh write region reads as zero bytes (R132). -/
theorem writeRegionBytes_initWrite (n : Len) (s : State) :
    writeRegionBytes (s.initWrite n) = List.replicate n.toNat 0 :=
  Memory.readBytes_empty 0 n.toNat

/-- R57: the exact sum narrowed to 16 bits is the sum of the 16-bit words. -/
theorem advance_eq_add (cur n : Len) : advance cur n = cur + n := rfl

/-- What an instruction that answers `t` has done. -/
theorem exec_next_cases {i : Instr} {s t : State} (h : exec i s = .next t) :
    ∃ r f, Answers s i r f ∧ t = (f s).reply (.response r) := by
  obtain ⟨r, f, ha, hexec⟩ := exec_cases i s
  cases h.symm.trans hexec
  exact ⟨r, f, ha, rfl⟩

section

variable {i : Instr} {s s' : State} {r : Response} {f : State → State} {n : Len}

/-- R161: an answer that is not OK updates nothing. -/
theorem Answers.eq_id_of_status_ne_ok (h : Answers s i r f) (hr : r.status ≠ .ok) : f = id := by
  cases h with
  | illegal | packed | unpacked | truncated | readPastEnd | writePastEnd => rfl
  | bound | read | initialised | written => exact absurd rfl hr

/-- R161: an error leaves the block as it was. -/
theorem Answers.sameBlock_of_status_ne_ok (h : Answers s i r f) (hr : r.status ≠ .ok) :
    s.sameBlock ((f s).reply (.response r)) := by
  obtain rfl := h.eq_id_of_status_ne_ok hr
  exact ⟨rfl, rfl, rfl, rfl, rfl, rfl⟩

/-- R137: the read-channel commands leave the write channel as it was. -/
theorem Answers.sameWriteChannel (h : Answers s i r f) (hi : ∃ n, i = .rbBind n ∨ i = .rbRead n) :
    s.sameWriteChannel (f s) := by
  obtain ⟨n, rfl | rfl⟩ := hi <;> cases h <;> exact ⟨rfl, rfl, rfl⟩

/-- R137: the write-channel commands leave the read channel as it was. -/
theorem Answers.sameReadChannel (h : Answers s i r f) (hi : ∃ n, i = .wbInit n ∨ i = .wbWrite n) :
    s.sameReadChannel (f s) := by
  obtain ⟨n, rfl | rfl⟩ := hi <;> cases h <;> exact ⟨rfl, rfl, rfl⟩

/-- R137: the read-channel commands sample no more than the payload and the read channel. -/
theorem SampleAlike.of_sameReadChannel (hpay : s'.port.payload = s.port.payload) (hs : s.sameReadChannel s')
    (hi : ∃ n, i = .rbBind n ∨ i = .rbRead n) : SampleAlike s s' i := by
  obtain ⟨n, rfl | rfl⟩ := hi
  · exact hpay
  · exact ⟨hpay, hs⟩

/-- R137: the write-channel commands sample no more than the payload and the write channel. -/
theorem SampleAlike.of_sameWriteChannel (hpay : s'.port.payload = s.port.payload) (hs : s.sameWriteChannel s')
    (hi : ∃ n, i = .wbInit n ∨ i = .wbWrite n) : SampleAlike s s' i := by
  obtain ⟨n, rfl | rfl⟩ := hi
  · exact hpay
  · exact ⟨hpay, hs⟩

/-- An update takes equal read channels to equal ones: none is computed from the write channel. -/
theorem Answers.sameReadChannel_map (h : Answers s i r f) (hs : s.sameReadChannel s') :
    (f s).sameReadChannel (f s') := by
  obtain ⟨hmem, hlen, hcur⟩ := hs
  cases h with
  | bound => exact ⟨rfl, rfl, rfl⟩
  | read => exact ⟨hmem, hlen, rfl⟩
  | _ => exact ⟨hmem, hlen, hcur⟩

/-- An update takes equal write channels to equal ones. -/
theorem Answers.sameWriteChannel_map (h : Answers s i r f) (hs : s.sameWriteChannel s') :
    (f s).sameWriteChannel (f s') := by
  obtain ⟨hmem, hcap, hcur⟩ := hs
  cases h with
  | initialised => exact ⟨rfl, rfl, rfl⟩
  | written => exact ⟨rfl, hcap, rfl⟩
  | _ => exact ⟨hmem, hcap, hcur⟩

/-- R137: the codec commands update nothing. -/
theorem Answers.eq_id_of_codec (h : Answers s i r f) (hi : i = .pack ∨ ∃ n, i = .unpack n) : f = id := by
  obtain rfl | ⟨n, rfl⟩ := hi <;> cases h <;> rfl

/-- R131: RB.READ keeps the read region and its length. -/
theorem Answers.readRegion_of_rbRead (h : Answers s (.rbRead n) r f) :
    (f s).rbMem = s.rbMem ∧ (f s).rbLen = s.rbLen := by
  cases h <;> exact ⟨rfl, rfl⟩

/-- R133: WB.WRITE keeps the capacity and every byte outside the n bytes from the cursor on. -/
theorem Answers.writeRegion_of_wbWrite (h : Answers s (.wbWrite n) r f) :
    (f s).wbCap = s.wbCap ∧
      ∀ a, a < s.wbCur.toNat ∨ s.wbCur.toNat + n.toNat ≤ a → (f s).wbMem.read a = s.wbMem.read a := by
  cases h with
  | illegal | writePastEnd => exact ⟨rfl, fun _ _ => rfl⟩
  | written hp hn =>
    have hlen : s.port.payload.length = n.toNat := hp
    exact ⟨rfl, fun a ha => Memory.read_writeBytes_outside _ _ _ a (hlen.symm ▸ ha)⟩

/-- R138: only RB.BIND moves the read cursor backwards. -/
theorem Answers.rbCur_le (h : Answers s i r f) (hi : ∀ n, i ≠ .rbBind n) : s.rbCur ≤ (f s).rbCur := by
  cases h with
  | bound => exact absurd rfl (hi _)
  | read hp hn => exact BitVec.le_def.2 ((Nat.le_add_right _ _).trans_eq (advance_toNat hn).symm)
  | _ => exact BitVec.le_refl _

/-- R138: only WB.INIT moves the write cursor backwards. -/
theorem Answers.wbCur_le (h : Answers s i r f) (hi : ∀ n, i ≠ .wbInit n) : s.wbCur ≤ (f s).wbCur := by
  cases h with
  | initialised => exact absurd rfl (hi _)
  | written hp hn => exact BitVec.le_def.2 ((Nat.le_add_right _ _).trans_eq (advance_toNat hn).symm)
  | _ => exact BitVec.le_refl _

/-- R130, R138: a successful RB.BIND sets the cursor to 0 and replaces the region. -/
theorem Answers.rewound_of_rbBind_ok (h : Answers s (.rbBind n) r f) (hok : r.status = .ok) :
    (f s).rbCur = 0 ∧ readRegionBytes (f s) = s.port.payload := by
  cases h with
  | illegal => cases hok
  | bound hp => exact ⟨rfl, readRegionBytes_bindRead hp s⟩

/-- R132, R138: a successful WB.INIT sets the cursor to 0 and replaces the region. -/
theorem Answers.rewound_of_wbInit_ok (h : Answers s (.wbInit n) r f) (hok : r.status = .ok) :
    (f s).wbCur = 0 ∧ writeRegionBytes (f s) = List.replicate n.toNat 0 := by
  cases h with
  | illegal => cases hok
  | initialised => exact ⟨rfl, writeRegionBytes_initWrite n s⟩

end

/-! ### The statements of the buffer controller's family -/

/-- Settles O19: a payload of n bytes is bound, and any other is illegal. -/
theorem bindResult : Obligations.BindResult := by
  intro n s
  refine ⟨encode_eq_or (op := 3) rfl (by decide), fun hp => ?_, fun hp => exec_illegal hp⟩
  exact ⟨_, exec_of_answers (.bound hp), readRegionBytes_bindRead hp s, Memory.ofBytes_wf 0 _,
    hp ▸ Memory.within_ofBytes _, rfl, rfl, rfl, rfl, rfl, rfl, rfl, rfl⟩

/-- Settles O20: without a payload the sum decides between the read and OUT_OF_BOUNDS. -/
theorem readResult : Obligations.ReadResult := by
  intro n s
  refine ⟨encode_eq_or (op := 4) rfl (by decide), fun hp hn => ?_, fun hp hn => ?_, fun hp => ?_⟩
  · exact ⟨_, _, exec_of_answers (.read (List.length_eq_zero_iff.2 hp) hn), Memory.length_readBytes _ _ _,
      fun k hk => byteAt_readBytes _ _ hk, advance_toNat hn, rfl, rfl, rfl, rfl, rfl, rfl, rfl, rfl⟩
  · exact exec_of_answers (.readPastEnd (List.length_eq_zero_iff.2 hp) hn)
  · exact exec_illegal fun h0 => hp (List.length_eq_zero_iff.1 h0)

/-- Settles O21: the second read starts where the first one ended, and the cursors add up. -/
theorem splitReads : Obligations.SplitReads := by
  intro s a b hfit
  have hlen := s.rbLen.isLt
  have hsum : (a + b).toNat = a.toNat + b.toNat := BitVec.toNat_add_of_lt (by omega)
  have ha : s.rbCur.toNat + a.toNat ≤ s.rbLen.toNat := by omega
  have hcur : (s.afterRead a).rbCur.toNat = s.rbCur.toNat + a.toNat := advance_toNat ha
  refine ⟨s.afterRead a, (s.afterRead a).afterRead b, s.afterRead (a + b), _, _, issueCommand_rbRead ha,
    issueCommand_rbRead (by rwa [hcur]), issueCommand_rbRead (by rwa [hsum, ← Nat.add_assoc]), rfl, rfl, ?_, ?_⟩
  · rw [State.afterRead, lastResponse_reply, hsum, Memory.readBytes_append, hcur]
    rfl
  · change advance (advance s.rbCur a) b = advance s.rbCur (a + b)
    simp only [advance_eq_add, BitVec.add_assoc]

/-- Settles O22: what the answers of RB.BIND and RB.READ keep. -/
theorem readChannelFrame : Obligations.ReadChannelFrame := by
  intro i n s t hi h
  obtain ⟨r, f, ha, rfl⟩ := exec_next_cases h
  obtain ⟨hpending, hport, hreplies⟩ := ha.host_frame
  obtain ⟨hmem, hcap, hcur⟩ := ha.sameWriteChannel ⟨n, hi⟩
  refine ⟨hmem, fun a => congrArg (·.read a) hmem, hcap, hcur, hpending, hport, ⟨r, congrArg (_ :: ·) hreplies⟩, ?_,
    fun hr => ha.sameBlock_of_status_ne_ok fun hok => hr (congrArg some hok)⟩
  rintro rfl
  obtain ⟨hread, hlen⟩ := ha.readRegion_of_rbRead
  exact ⟨fun a => congrArg (·.read a) hread, hlen⟩

/-- Settles O23: an empty payload initialises, and any other is illegal. -/
theorem initResult : Obligations.InitResult := by
  intro n s
  refine ⟨encode_eq_or (op := 5) rfl (by decide), fun hp => ?_,
    fun hp => exec_illegal fun h0 => hp (List.length_eq_zero_iff.1 h0)⟩
  exact ⟨_, exec_of_answers (.initialised (List.length_eq_zero_iff.2 hp)), writeRegionBytes_initWrite n s,
    Memory.wf_nil, nofun, rfl, rfl, rfl, rfl, rfl, rfl, rfl, rfl⟩

/-- Settles O24: with a payload of n bytes the sum decides between the write and OUT_OF_BOUNDS. -/
theorem writeResult : Obligations.WriteResult := by
  intro n s
  refine ⟨encode_eq_or (op := 6) rfl (by decide), fun hwf hp hn => ?_,
    fun hp hn => exec_of_answers (.writePastEnd hp hn), fun hp => exec_illegal hp⟩
  have ha := Answers.written (s := s) hp hn
  obtain ⟨hcap, houtside⟩ := ha.writeRegion_of_wbWrite
  exact ⟨_, exec_of_answers ha, fun k hk => Memory.read_writeBytes_byteAt hwf _ (hp.symm ▸ hk), houtside,
    advance_toNat hn, hcap, rfl, rfl, rfl, rfl, rfl, rfl⟩

/-- Settles O25: the second write starts where the first one ended. -/
theorem splitWrites : Obligations.SplitWrites := by
  intro s p1 p2 hfit _
  have hfirst : s.wbCur.toNat + p1.length ≤ s.wbCap.toNat := by omega
  have hcur := State.afterWrite_wbCur hfirst
  have hsecond : (s.afterWrite p1).wbCur.toNat + p2.length ≤ (s.afterWrite p1).wbCap.toNat := by rwa [hcur]
  have hboth : s.wbCur.toNat + (p1 ++ p2).length ≤ s.wbCap.toNat := by rwa [List.length_append, ← Nat.add_assoc]
  refine ⟨_, _, _, issueCommand_writeCommand hfirst, issueCommand_writeCommand hsecond,
    issueCommand_writeCommand hboth, rfl, rfl, rfl, ?_, BitVec.eq_of_toNat_eq ?_⟩
  · rw [State.afterWrite_wbMem, State.afterWrite_wbMem, State.afterWrite_wbMem, hcur, Memory.writeBytes_append]
  · rw [State.afterWrite_wbCur hsecond, State.afterWrite_wbCur hboth, hcur, List.length_append, Nat.add_assoc]

/-- Settles O26: what the answers of WB.INIT and WB.WRITE keep. -/
theorem writeChannelFrame : Obligations.WriteChannelFrame := by
  intro i n s t hi h
  obtain ⟨r, f, ha, rfl⟩ := exec_next_cases h
  obtain ⟨hpending, hport, hreplies⟩ := ha.host_frame
  obtain ⟨hmem, hlen, hcur⟩ := ha.sameReadChannel ⟨n, hi⟩
  refine ⟨hmem, fun a => congrArg (·.read a) hmem, hlen, hcur, hpending, hport, ⟨r, congrArg (_ :: ·) hreplies⟩, ?_,
    fun hr => ha.sameBlock_of_status_ne_ok fun hok => hr (congrArg some hok)⟩
  rintro rfl
  exact ha.writeRegion_of_wbWrite

/-- Settles O32: a channel's commands sample the payload and that channel, and update it alone. -/
theorem channelsAreIndependent : Obligations.ChannelsAreIndependent := by
  intro i s s' hport
  obtain ⟨r, f, ha⟩ := exists_answers i s
  have hpay : s'.port.payload = s.port.payload := congrArg (·.payload) hport.symm
  refine ⟨fun hi hmem hlen hcur => ?_, fun hi hmem hcap hcur => ?_, fun hi => ?_⟩
  · have ha' := ha.of_sampleAlike (.of_sameReadChannel hpay ⟨hmem.symm, hlen.symm, hcur.symm⟩ hi)
    obtain ⟨hmem', hlen', hcur'⟩ := ha'.sameReadChannel_map ⟨hmem, hlen, hcur⟩
    exact ⟨_, _, r, exec_of_answers ha, exec_of_answers ha', congrArg (_ :: ·) ha.host_frame.2.2,
      congrArg (_ :: ·) ha'.host_frame.2.2, hmem', hlen', hcur', ha.sameWriteChannel hi⟩
  · have ha' := ha.of_sampleAlike (.of_sameWriteChannel hpay ⟨hmem.symm, hcap.symm, hcur.symm⟩ hi)
    obtain ⟨hmem', hcap', hcur'⟩ := ha'.sameWriteChannel_map ⟨hmem, hcap, hcur⟩
    exact ⟨_, _, r, exec_of_answers ha, exec_of_answers ha', congrArg (_ :: ·) ha.host_frame.2.2,
      congrArg (_ :: ·) ha'.host_frame.2.2, hmem', hcap', hcur', ha.sameReadChannel hi⟩
  · obtain rfl := ha.eq_id_of_codec hi
    exact ⟨_, exec_of_answers ha, rfl, rfl, rfl, rfl, rfl, rfl⟩

/-- Settles O33: an illegal word moves no cursor, and every other word does what its instruction's answer does. -/
theorem cursorsNeverRewind : Obligations.CursorsNeverRewind := by
  intro s t c rest hq hstep
  cases hd : decodeWord c.word with
  | error e =>
    cases hstep.symm.trans (step_issue_error hq hd)
    exact ⟨fun _ => BitVec.le_refl _, fun _ => BitVec.le_refl _, nofun, nofun⟩
  | ok i =>
    obtain ⟨r, f, ha, rfl, -⟩ := step_issue_cases hq hd hstep
    refine ⟨fun hne => ha.rbCur_le fun n hi => hne n (congrArg _ hi),
      fun hne => ha.wbCur_le fun n hi => hne n (congrArg _ hi), fun n hi hok => ?_, fun n hi hok => ?_⟩
    · obtain rfl := Except.ok.inj hi
      exact ha.rewound_of_rbBind_ok (Option.some.inj hok)
    · obtain rfl := Except.ok.inj hi
      exact ha.rewound_of_wbInit_ok (Option.some.inj hok)

end Sys2Proof.Machine

namespace Sys2Proof.Machine

/-! ### Errors -/

section

variable {i : Instr} {s s' : State} {r : Response} {f : State → State}

/-- R161: an answer that is not OK carries its status alone. -/
theorem Answers.bare_of_status_ne_ok (h : Answers s i r f) (hr : r.status ≠ .ok) : r = { status := r.status } := by
  cases h with
  | illegal | truncated | readPastEnd | writePastEnd => rfl
  | packed | unpacked | bound | read | initialised | written => exact absurd rfl hr

/-- R103, R160: with a payload of the right length, TRUNCATED_INPUT is the answer to an UNPACK of fewer than 12 bytes. -/
theorem Answers.status_truncated_iff (h : Answers s i r f) (hp : i.wellFormed s.port.payload) :
    r.status = .truncatedInput ↔ ∃ n, i = .unpack n ∧ n.toNat < 12 := by
  cases h with
  | illegal hp' => exact absurd hp hp'
  | truncated _ hn => exact iff_of_true rfl ⟨_, rfl, hn⟩
  | unpacked _ hn => simp [hn]
  | packed | bound | read | readPastEnd | initialised | written | writePastEnd => simp

/-- R131, R133, R160: with a payload of the right length, OUT_OF_BOUNDS is the answer to an RB.READ or a WB.WRITE that ends
past its region. -/
theorem Answers.status_outOfBounds_iff (h : Answers s i r f) (hp : i.wellFormed s.port.payload) :
    r.status = .outOfBounds ↔
      (∃ n, i = .rbRead n ∧ s.rbLen.toNat < s.rbCur.toNat + n.toNat) ∨
        ∃ n, i = .wbWrite n ∧ s.wbCap.toNat < s.wbCur.toNat + n.toNat := by
  cases h with
  | illegal hp' => exact absurd hp hp'
  | readPastEnd _ hn => exact iff_of_true rfl (.inl ⟨_, rfl, hn⟩)
  | writePastEnd _ hn => exact iff_of_true rfl (.inr ⟨_, rfl, hn⟩)
  | read _ hn | written _ hn => simp [hn]
  | packed | unpacked | truncated | bound | initialised => simp

/-- An instruction samples nothing but the block and the command port (R31, R76). -/
theorem SampleAlike.of_sameBlock (hport : s'.port = s.port) (h : s.sameBlock s') : SampleAlike s s' i := by
  obtain ⟨hrm, hrl, hrc, hwm, hwl, hwc⟩ := h
  have hpay : s'.port.payload = s.port.payload := congrArg (·.payload) hport
  cases i with
  | pack => exact ⟨hpay, congrArg (·.hIn) hport⟩
  | unpack | rbBind | wbInit => exact hpay
  | rbRead => exact ⟨hpay, hrm, hrl, hrc⟩
  | wbWrite => exact ⟨hpay, hwm, hwl, hwc⟩

/-- An update takes equal blocks to equal ones. -/
theorem Answers.sameBlock_map (h : Answers s i r f) (hs : s.sameBlock s') : (f s).sameBlock (f s') := by
  obtain ⟨hrm, hrl, hrc, hwrite⟩ := hs
  obtain ⟨hrm', hrl', hrc'⟩ := h.sameReadChannel_map ⟨hrm, hrl, hrc⟩
  exact ⟨hrm', hrl', hrc', h.sameWriteChannel_map hwrite⟩

/-- R76: a command's response and the block after it depend on the command and the block alone. -/
theorem issueCommand_of_sameBlock (c : Command) (hs : s.sameBlock s') :
    ∃ t t', issueCommand c s = .next t ∧ issueCommand c s' = .next t' ∧ t.sameBlock t' ∧
      lastResponse t' = lastResponse t := by
  cases hd : decodeWord c.word with
  | error e => exact ⟨_, _, issueCommand_error s hd, issueCommand_error s' hd, hs, rfl⟩
  | ok i =>
    obtain ⟨r, f, ha⟩ := exists_answers i (s.setPort c)
    have hport : (s.setPort c).sameBlock (s'.setPort c) := hs
    have ha' : Answers (s'.setPort c) i r f := ha.of_sampleAlike (.of_sameBlock rfl hport)
    exact ⟨_, _, (issueCommand_ok s hd).trans (exec_of_answers ha), (issueCommand_ok s' hd).trans (exec_of_answers ha'),
      ha.sameBlock_map hport, rfl⟩

/-- R161: a command that does not end with OK has added its bare status to the replies, and that is all it has done. -/
theorem step_issue_not_ok {t : State} {c : Command} {rest : List HostAction} (hq : s.pending = .issue c :: rest)
    (hstep : step s = .next t) (hne : lastStatus t ≠ some .ok) :
    ∃ e, t = (s.issued c rest).reply (.response { status := e }) := by
  cases hd : decodeWord c.word with
  | error e =>
    cases hstep.symm.trans (step_issue_error hq hd)
    exact ⟨_, rfl⟩
  | ok i =>
    obtain ⟨r, f, ha, rfl, -⟩ := step_issue_cases hq hd hstep
    have hr : r.status ≠ .ok := fun hok => hne (congrArg some hok)
    obtain rfl := ha.eq_id_of_status_ne_ok hr
    exact ⟨r.status, by rw [← ha.bare_of_status_ne_ok hr, id]⟩

end

/-! ### The statements of the exceptions' family -/

/-- Settles O6: every meaning checks the payload's length before anything else. -/
theorem illegalComesFirst : Obligations.IllegalComesFirst := fun _ _ => exec_illegal

/-- Settles O34: the status in the one reply added is the one the state reports. -/
theorem errorsWriteNothing : Obligations.ErrorsWriteNothing := by
  intro s t c rest e hq hstep hlast he
  obtain ⟨e', rfl⟩ := step_issue_not_ok hq hstep (by simpa [hlast] using he)
  obtain rfl : e' = e := Option.some.inj hlast
  exact ⟨rfl, rfl, rfl, rfl, rfl, rfl, rfl⟩

/-- Settles O35: the second command finds the same block with and without the failed one before it. -/
theorem errorsAreRecoverable : Obligations.ErrorsAreRecoverable := by
  intro s t c d rest hq hstep hne
  obtain ⟨e, rfl⟩ := step_issue_not_ok hq hstep hne
  have hsame : (s.setPending rest).sameBlock
      (((s.issued c (.issue d :: rest)).reply (.response { status := e })).setPending rest) :=
    ⟨rfl, rfl, rfl, rfl, rfl, rfl⟩
  obtain ⟨v, u, hv, hu, hblock, hresponse⟩ := issueCommand_of_sameBlock d hsame
  exact ⟨u, v, (step_cons (a := .issue d) rfl).trans hu, (step_cons (a := .issue d) rfl).trans hv, hblock, hresponse⟩

/-- Settles O37: an illegal command has the bare ILLEGAL_COMMAND, and a legal one its instruction's answer. -/
theorem statusesByCommand : Obligations.StatusesByCommand := by
  refine ⟨⟨rfl, rfl, rfl, rfl⟩, fun s c rest hq => ?_⟩
  by_cases hl : c.legal
  · obtain ⟨i, hd, hp⟩ := Command.legal_iff.1 hl
    obtain ⟨r, f, ha, hexec⟩ := exec_cases i (s.issued c rest)
    refine ⟨_, r, (step_issue_ok hq hd).trans hexec, rfl, ?_⟩
    simp only [hd, Except.ok.injEq, and_iff_right hl]
    refine ⟨ha.status_truncated_iff hp, ha.status_outOfBounds_iff hp,
      iff_of_false (ha.status_ne_illegal hp) (not_not.2 hl), fun hr => ?_⟩
    rw [ha.bare_of_status_ne_ok hr]
    exact ⟨rfl, rfl, rfl⟩
  · exact ⟨_, _, step_illegal hq hl, rfl, by simp [hl], by simp [hl], iff_of_true rfl hl, fun _ => ⟨rfl, rfl, rfl⟩⟩

end Sys2Proof.Machine

namespace Sys2Proof.Machine

/-! ### The outcome of a step -/

/-- R74, R75: every command completes, whatever its word and its payload. -/
theorem issueCommand_completes (c : Command) (s : State) : ∃ t, issueCommand c s = .next t := by
  cases hd : decodeWord c.word with
  | error e => exact ⟨_, issueCommand_error s hd⟩
  | ok i =>
    obtain ⟨r, f, -, hexec⟩ := exec_cases i (s.setPort c)
    exact ⟨_, (issueCommand_ok s hd).trans hexec⟩

/-- R41: the indices 0 to 3 each name a register. -/
theorem three_lt_of_registerAt_eq_none {index : Nat} {s : State} (h : registerAt index s = none) : 3 < index :=
  match index, h with
  | 0, h | 1, h | 2, h | 3, h => nomatch h
  | k + 4, _ => Nat.le_add_left 4 k

/-- R40, R185: a step answers a next state, or refuses one of the two host reads that are out of range. -/
theorem step_outcome (s : State) :
    (∃ t, step s = .next t) ∨
    (step s = .refused .registerIndex ∧ ∃ index rest, s.pending = .readRegister index :: rest ∧ 3 < index) ∨
    (step s = .refused .regionIndex ∧ ∃ i rest, s.pending = .readRegion i :: rest ∧ s.wbCap.toNat ≤ i) := by
  match hq : s.pending with
  | [] => exact .inl ⟨s, step_nil hq⟩
  | .issue c :: rest =>
    obtain ⟨t, ht⟩ := issueCommand_completes c (s.setPending rest)
    exact .inl ⟨t, (step_cons hq).trans ht⟩
  | .readRegister index :: rest =>
    obtain ⟨v, -, h⟩ | ⟨hnone, h⟩ := hostReadRegister_cases index (s.setPending rest)
    · exact .inl ⟨_, (step_cons hq).trans h⟩
    · exact .inr (.inl ⟨(step_cons hq).trans h, index, rest, rfl, three_lt_of_registerAt_eq_none hnone⟩)
  | .readRegion i :: rest =>
    obtain ⟨-, h⟩ | ⟨hi, h⟩ := hostReadRegion_cases i (s.setPending rest)
    · exact .inl ⟨_, (step_cons hq).trans h⟩
    · exact .inr (.inr ⟨(step_cons hq).trans h, i, rest, rfl, hi⟩)
  | .reset :: rest => exact .inl ⟨_, step_cons hq⟩

/-! ### The response to an encoded command -/

/-- An encoded command's response is its instruction's answer. -/
theorem issueCommand_response {i : Instr} {h : HIn} {p : List Byte} {s : State} {r : Response} {f : State → State}
    (ha : Answers (s.setPort (encodeCommand i h p)) i r f) :
    ∃ t, issueCommand (encodeCommand i h p) s = .next t ∧ lastResponse t = some r :=
  ⟨_, (issueCommand_encodeCommand i h p s).trans (exec_of_answers ha), lastResponse_reply r _⟩

/-- R30: PACK and UNPACK respond alike on every two states. -/
theorem issueCommand_codec_response {i : Instr} (hi : i = .pack ∨ ∃ n, i = .unpack n) (h : HIn) (p : List Byte)
    (s s' : State) : ∃ t t', issueCommand (encodeCommand i h p) s = .next t ∧
      issueCommand (encodeCommand i h p) s' = .next t' ∧ lastResponse t = lastResponse t' := by
  obtain ⟨t, t', r, ht, ht', -, -, -, -, -, hr, hr'⟩ :=
    codecHoldsNoState i hi (s.setPort (encodeCommand i h p)) (s'.setPort (encodeCommand i h p)) rfl
  refine ⟨t, t', (issueCommand_encodeCommand i h p s).trans ht, (issueCommand_encodeCommand i h p s').trans ht', ?_⟩
  simp only [lastResponse, hr, hr']

/-- Two commands that complete, the second on the state the first left, are a run of both (R63). -/
theorem issueAll_pair {c d : Command} {s t u : State} (hc : issueCommand c s = .next t)
    (hd : issueCommand d t = .next u) : issueAll [c, d] s = .next u := by
  simp only [issueAll, hc, hd, andThen_next]

/-- R137: a WB.INIT leaves the read channel as it was. -/
theorem State.sameReadChannel_afterInit (n : Len) (s : State) : s.sameReadChannel (s.afterInit n) := ⟨rfl, rfl, rfl⟩

/-- R137: an RB.BIND leaves the write channel as it was. -/
theorem State.sameWriteChannel_afterBind (n : Len) (p : List Byte) (s : State) :
    s.sameWriteChannel (s.afterBind n p) := ⟨rfl, rfl, rfl⟩

/-! ### The statements of the family of reset and hazards -/

/-- Settles O38: every instruction has an answer, and the outcomes of a step name no fault and two refusals. -/
theorem neverFaults : Obligations.NeverFaults := by
  refine ⟨fun i s => ?_, fun s f hf => ?_, fun s r hr => ?_⟩
  · obtain ⟨r, f, -, hexec⟩ := exec_cases i s
    exact ⟨_, hexec⟩
  · obtain ⟨t, h⟩ | ⟨h, -⟩ | ⟨h, -⟩ := step_outcome s <;> cases hf.symm.trans h
  · obtain ⟨t, h⟩ | ⟨h, hduty⟩ | ⟨h, hduty⟩ := step_outcome s <;> cases hr.symm.trans h
    · exact .inl ⟨rfl, hduty⟩
    · exact .inr ⟨rfl, hduty⟩

/-- Settles O44: both orders succeed, and each command leaves the other one's channel as it was. -/
theorem preparationOrderIrrelevant : Obligations.PreparationOrderIrrelevant := by
  intro s p m n hp
  obtain ⟨hmem, hlen, hcur⟩ := (s.afterBind m p).sameReadChannel_afterInit n
  refine ⟨(s.afterBind m p).afterInit n, (s.afterInit n).afterBind m p,
    issueAll_pair (issueCommand_rbBind hp s) (issueCommand_wbInit n _),
    issueAll_pair (issueCommand_wbInit n s) (issueCommand_rbBind hp _),
    ⟨hmem.symm, hlen.symm, hcur.symm, (s.afterInit n).sameWriteChannel_afterBind m p⟩, ?_, rfl⟩
  rw [readRegionBytes, hmem, hlen]
  exact readRegionBytes_bindRead hp s

/-- Settles O49: with both regions empty 0 bytes fit and no more do; the codec samples no region. -/
theorem behaviourAfterReset : Obligations.BehaviourAfterReset := by
  rintro s n h p ⟨-, hlen, hrc, -, hcap, hwc⟩
  have hread : s.rbCur.toNat = s.rbLen.toNat := hrc ▸ hlen ▸ rfl
  have hwrite : s.wbCur.toNat = s.wbCap.toNat := hwc ▸ hcap ▸ rfl
  refine ⟨issueCommand_response (.read rfl hread.le), fun hn => issueCommand_response (.readPastEnd rfl ?_),
    issueCommand_response (p := []) (.written rfl hwrite.le),
    fun hn hp => issueCommand_response (.writePastEnd hp ?_), fun i hi s' => ?_⟩
  · exact hread ▸ Nat.lt_add_of_pos_right hn
  · exact hwrite ▸ Nat.lt_add_of_pos_right hn
  · exact issueCommand_codec_response (hi.imp_right fun hu => ⟨n, hu⟩) h p s s'

/-- Settles O47: a step with nothing pending is idle. -/
theorem idleHoldsState : Obligations.IdleHoldsState := fun _ => step_nil

/-- Settles O48: a reset the host asserts is one step, to the reset block. -/
theorem resetState : Obligations.ResetState := by
  refine ⟨⟨rfl, rfl, rfl, rfl, rfl, rfl⟩, fun s rest hq => ?_⟩
  exact ⟨_, step_cons hq, ⟨rfl, rfl, rfl, rfl, rfl, rfl⟩, State.resetBlock_inv _⟩

/-- Settles O52: the state after reset is its own reset block. -/
theorem resetMeetsInvariant : Obligations.ResetMeetsInvariant := State.resetBlock_inv State.reset

end Sys2Proof.Machine
